-- ==== Sys2Proof/Word.lean ====
section
/-! DEFINITION. The word types of the frame codec: a bit of the line, a character, a command word and the
status word (R11, R57, R59). -/

namespace Sys2Proof

/-- One bit on a line port or of a frame (R12: a bit string is a sequence, element 0 sent first). -/
abbrev Bit := Bool

/-- A byte, 0..255; bit 7 is the most significant (R11). -/
abbrev Byte := BitVec 8

/-- A 16-bit command word; bit 0 is the least significant (R57, R75). -/
abbrev Word := BitVec 16

/-- The 32-bit status word; bit 0 is the least significant (R33, R57). -/
abbrev StatusWord := BitVec 32

end Sys2Proof
end

