-- ==== Sys2Proof/Syntax.lean ====
section
/-! DEFINITION. The six command words as an inductive type, one constructor per row of the opcode table (R77),
and the lines of the assembler syntax (R86 to R88). -/

namespace Sys2Proof

/-- The operations a host can command (R2, R77). Only `TXCHAR` has an operand, the 8-bit character code
`DATA = w[7:0]` (R76). -/
inductive Instr where
  /-- `NOP`: do nothing (R160). -/
  | nop
  /-- `TXBEGIN`: open a frame, queue START marker and creator tag (R121). -/
  | txbegin
  /-- `TXCHAR d`: queue one character of the open user field (R122). -/
  | txchar (d : Byte)
  /-- `TXSEP`: close the country, queue the separator, open the text (R123). -/
  | txsep
  /-- `TXEND`: close the text, queue the END marker, close the frame (R124). -/
  | txend
  /-- `CLRSTAT`: clear the error and result fields (R162). -/
  | clrstat
deriving DecidableEq, Repr

/-- TX-class: `TXBEGIN`, `TXCHAR`, `TXSEP`, `TXEND` (R77's class column). -/
def Instr.txClass : Instr → Bool
  | .nop => false
  | .txbegin => true
  | .txchar _ => true
  | .txsep => true
  | .txend => true
  | .clrstat => false

/-- One line of a test program (R86), with the two pseudo-instructions (R87, R88) and the environment events.
Numeric operands stand as written (unbounded); `AsmLine.wellFormed` checks their ranges. -/
inductive AsmLine where
  | nop
  | txbegin
  /-- `TXCHAR imm8`. -/
  | txchar (imm8 : Nat)
  | txsep
  | txend
  | clrstat
  /-- `.word imm16`, for writing illegal words. -/
  | word (imm16 : Nat)
  /-- `TXSTR "s"`. -/
  | txstr (s : List Byte)
  /-- `TXFRAME "country", "text"`. -/
  | txframe (country text : List Byte)
  /-- `sink tx`: the TX sink takes every pending bit. -/
  | sinkTx
  /-- `rx "hex bytes" last`: the bytes' bits, `rx_last` = 1 on the final bit. -/
  | rxBytes (bytes : List Byte)
  /-- `rx bits "0101..."`, with `last` or without it. -/
  | rxBits (bits : List Bit) (last : Bool)
  /-- `drain`: the output sink takes every pending item. -/
  | drain
deriving DecidableEq, Repr

end Sys2Proof
end

