-- ==== Sys2Proof/Config.lean ====
section
/-! DEFINITION. What is fixed when a block is built: the three marker/tag strings and the size of the receive
buffer (R8, R49), legal by R9. A `Config` carries its legality, so an illegal one cannot be written down. -/

namespace Sys2Proof

/-- Every byte is in 0x00..0x7F (R9, the source's "all ASCII text"). -/
def asciiOnly (s : List Byte) : Bool := s.all fun b => decide (b.toNat < 0x80)

/-- R9: the three strings are ASCII, `L_E >= 1`, and `N_RXBUF >= L_S + L_C + L_E + 1`.
`L_S` and `L_C` may be 0. -/
def legalConfig (startStr creatorStr endStr : List Byte) (nRxBuf : Nat) : Bool :=
  asciiOnly startStr && asciiOnly creatorStr && asciiOnly endStr
    && decide (1 ≤ endStr.length)
    && decide (startStr.length + creatorStr.length + endStr.length + 1 ≤ nRxBuf)

/-- The parameters of a built block (R8), legal by R9. The default values serve only to show that the type
is not empty; no definition of the model uses them (the spec gives the parameters no value). -/
structure Config where
  /-- `START_STR`, the START marker. -/
  startStr : List Byte := []
  /-- `CREATOR_STR`, the creator tag. -/
  creatorStr : List Byte := []
  /-- `END_STR`, the END marker. -/
  endStr : List Byte := [0x00#8]
  /-- `N_RXBUF`, the capacity of the RX frame buffer in bytes. -/
  nRxBuf : Nat := 2
  /-- R9: the configuration is legal. -/
  isLegal : legalConfig startStr creatorStr endStr nRxBuf = true := by decide
deriving DecidableEq, Repr, Inhabited

/-- The configuration made of four parameters; an illegal choice is refused (R9). -/
def Config.ofParameters (startStr creatorStr endStr : List Byte) (nRxBuf : Nat) : Option Config :=
  if h : legalConfig startStr creatorStr endStr nRxBuf = true then
    some ⟨startStr, creatorStr, endStr, nRxBuf, h⟩
  else none

/-- `L_S`, the length of `START_STR` (R8). -/
def Config.lS (c : Config) : Nat := c.startStr.length
/-- `L_C`, the length of `CREATOR_STR` (R8). -/
def Config.lC (c : Config) : Nat := c.creatorStr.length
/-- `L_E`, the length of `END_STR` (R8). -/
def Config.lE (c : Config) : Nat := c.endStr.length
/-- `L_OVH = L_S + L_C + L_E`, the overhead in bytes (R10). -/
def Config.lOvh (c : Config) : Nat := c.lS + c.lC + c.lE

/-- The configuration the block after reset was built with: any legal one. The spec gives the parameters no
value (R8, "a model takes each as an argument"), so this constant has no body and nothing can be proved of its
value beyond R9 (assumption log 1). -/
opaque Config.built : Config

end Sys2Proof
end

