-- ==== Sys2Proof/WellFormed.lean ====
section
/-! DEFINITION. Which terms of the syntax the spec admits. (The legality of a configuration, R9, is
`legalConfig` of Config.lean.) -/

namespace Sys2Proof

/-- Every instruction is well formed: `TXCHAR`'s operand may take every value 0x00..0xFF (R76), which is
exactly the range of its type, and no other instruction has an operand. -/
def Instr.wellFormed : Instr → Bool
  | .nop => true
  | .txbegin => true
  | .txchar _ => true
  | .txsep => true
  | .txend => true
  | .clrstat => true

/-- R86: `imm8` is a number 0..255 and `imm16` fits a 16-bit word; an `rx` line that ends a unit carries at
least one bit, since "a unit has at least one bit" (R142). -/
def AsmLine.wellFormed : AsmLine → Bool
  | .nop => true
  | .txbegin => true
  | .txchar imm8 => decide (imm8 < 256)
  | .txsep => true
  | .txend => true
  | .clrstat => true
  | .word imm16 => decide (imm16 < 65536)
  | .txstr _ => true
  | .txframe _ _ => true
  | .sinkTx => true
  | .rxBytes bytes => !bytes.isEmpty
  | .rxBits bits last => !last || !bits.isEmpty
  | .drain => true

end Sys2Proof
end

