-- ==== Sys2Proof/Decode.lean ====
section
/-! DEFINITION. The command word (R75 to R81): its fields, the total decoder, the class test of the command
port, and the encoder. -/

namespace Sys2Proof

/-- `OP = w[15:12]` (R75). -/
def opField (w : Word) : BitVec 4 := w.extractLsb' 12 4
/-- `RSV = w[11:8]`, reserved, must be 0 (R75). -/
def rsvField (w : Word) : BitVec 4 := w.extractLsb' 8 4
/-- `DATA = w[7:0]`, the character of `TXCHAR`, used unchanged (R75, R76). -/
def dataField (w : Word) : Byte := w.extractLsb' 0 8

/-- Why a word encodes no operation; the three kinds of R79. -/
inductive IllegalWord where
  /-- `OP` in 0x6..0xF. -/
  | unassignedOp (w : Word)
  /-- `OP` in 0x0..0x5 and `RSV != 0`. -/
  | reservedBits (w : Word)
  /-- `OP` in 0x0, 0x1, 0x3, 0x4, 0x5, `RSV = 0` and `DATA != 0`. -/
  | unusedData (w : Word)
deriving DecidableEq, Repr

/-- The word of `ILLEGAL(w)` (R78). -/
def IllegalWord.word : IllegalWord → Word
  | .unassignedOp w => w
  | .reservedBits w => w
  | .unusedData w => w

/-- The name of an illegal word's kind (R79), the first that applies: DESIGN CHOICE (assumption log 13). -/
def illegalKind (w : Word) : IllegalWord :=
  if 6 ≤ (opField w).toNat then .unassignedOp w
  else if rsvField w ≠ 0#4 then .reservedBits w
  else .unusedData w

/-- `decodeCmd`, total on 16-bit words, in the order of R78. -/
def decodeCmd (w : Word) : Except IllegalWord Instr :=
  if w = 0x0000#16 then .ok .nop
  else if w = 0x1000#16 then .ok .txbegin
  else if w &&& 0xFF00#16 = 0x2000#16 then .ok (.txchar (dataField w))
  else if w = 0x3000#16 then .ok .txsep
  else if w = 0x4000#16 then .ok .txend
  else if w = 0x5000#16 then .ok .clrstat
  else .error (illegalKind w)

/-- `isTX(w)`, the test the command port makes on the offered word (R37). -/
def isTX (w : Word) : Bool :=
  w == 0x1000#16 || (w &&& 0xFF00#16) == 0x2000#16 || w == 0x3000#16 || w == 0x4000#16

/-- The word of an instruction (R77's `word` column; `TXCHAR` is `0x2000 + d`, R86). -/
def encode : Instr → Word
  | .nop => 0x0000#16
  | .txbegin => 0x1000#16
  | .txchar d => 0x2000#16 + d.setWidth 16
  | .txsep => 0x3000#16
  | .txend => 0x4000#16
  | .clrstat => 0x5000#16

/-- The decoder on an opcode-table word: every row is one 16-bit word (R75), so a number of more than 16 bits
is no command word and is refused. -/
def decodeTableWord (nbits w : Nat) : Option Instr :=
  if nbits ≤ 16 ∧ w < 2 ^ nbits then (decodeCmd (BitVec.ofNat 16 w)).toOption else none

end Sys2Proof
end

