-- ==== Sys2Proof/Machine/State.lean ====
section
/-! DEFINITION. The architectural state (R22 to R32), the constants of the built block (R49), and the
environment's two lists: the signals at the coming clock edges and the transfers made so far. -/

namespace Sys2Proof.Machine

/-- `tx_field`, which user field a `TXCHAR` appends to (R23). Encoding 3 is never produced, so the type has
no value for it. -/
inductive TxField where
  | idle
  | country
  | text
deriving DecidableEq, Repr

/-- The four fields of a decoded unit (R28, R106). -/
inductive Field where
  | start
  | creator
  | payload
  | endMarker
deriving DecidableEq, Repr

/-- `rx_result`, the outcome of the last unit decoded (R29). -/
inductive RxResult where
  | none
  | ok
  | short
  | partialUnit
  | overflow
deriving DecidableEq, Repr

/-- `cmd_cause`, the cause of the first command error (R31). -/
inductive CmdCause where
  | none
  | illegal
  | sequence
deriving DecidableEq, Repr

/-- One decoded byte on the output port with its field tag and flags (R28). -/
structure Item where
  byte : Byte
  field : Field
  /-- The last byte of its field. -/
  flast : Bool
  /-- The last byte of the unit. -/
  last : Bool
deriving DecidableEq, Repr

/-- The input signals at one rising edge of `clk` (R36). The defaults are an edge at which no agent offers
anything. -/
structure Inputs where
  rst : Bool := false
  cmdValid : Bool := false
  cmdWord : Word := 0x0000#16
  txReady : Bool := false
  rxValid : Bool := false
  rxBit : Bit := false
  rxLast : Bool := false
  outReady : Bool := false
deriving DecidableEq, Repr

/-- One transfer on one port, or reset (R16), with the data it moves. -/
inductive Transfer where
  /-- An edge with `rst` = 1 (R190). -/
  | reset
  /-- The command port accepts a word (R37). -/
  | command (w : Word)
  /-- The TX line port delivers a bit and `tx_last` (R38, R127). -/
  | txLine (bit : Bit) (last : Bool)
  /-- The RX line port accepts a bit and `rx_last` (R39, R140). -/
  | rxLine (bit : Bit) (last : Bool)
  /-- The output port delivers an item (R40, R150). -/
  | output (item : Item)
deriving DecidableEq, Repr

/-- The state: R22's ten variables, and three fields of the model's own (assumption log 1, 2 and 3). -/
structure State where
  /-- The marker/tag ROM and the parameters: constants of the built block, changed by no step (R49). -/
  cfg : Config
  /-- `tx_field` (R23). -/
  txField : TxField
  /-- `tx_pend`, the queued bits not yet emitted, in emission order (R24). -/
  txPend : List Bit
  /-- `tx_pend_end` (R25). -/
  txPendEnd : Bool
  /-- `rx_bits`, the kept bits of the current unit: the RX frame buffer (R26, R53). -/
  rxBits : List Bit
  /-- `rx_ovf` (R27). -/
  rxOvf : Bool
  /-- `rx_out`, the decoded items not yet taken (R28). -/
  rxOut : List Item
  /-- `rx_result` (R29). -/
  rxResult : RxResult
  /-- `cmd_err` (R30). -/
  cmdErr : Bool
  /-- `cmd_cause` (R31). -/
  cmdCause : CmdCause
  /-- `err_word` (R32). -/
  errWord : Word
  /-- The environment's: the input signals at the coming clock edges, next edge first. -/
  edges : List Inputs
  /-- The environment's: the transfers made so far, oldest first; no rule of the block reads it. -/
  trace : List Transfer
deriving DecidableEq, Repr

/-- Faults: none. "The block never transfers control, never stops and never refuses a transfer because of an
error" (R170), so the type has no constructor. -/
inductive Fault
deriving DecidableEq, Repr

/-- Refusals. -/
inductive Refusal where
  /-- Raised by an arm of `exec` that has no meaning yet; safe (a run stops there). No arm is left. -/
  | notModelled (mnemonic : String)
deriving DecidableEq, Repr

/-- What every step answers. -/
abbrev Result := Host.Outcome State Fault Refusal

/-- The state right after reset (R44): every variable at its reset value, no edge scheduled, nothing
transferred yet. The configuration is any legal one. -/
def State.reset : State where
  cfg := Config.built
  txField := .idle
  txPend := []
  txPendEnd := false
  rxBits := []
  rxOvf := false
  rxOut := []
  rxResult := .none
  cmdErr := false
  cmdCause := .none
  errWord := 0x0000#16
  edges := []
  trace := []

end Sys2Proof.Machine
end

