-- ==== Sys2Proof/Machine/Operands.lean ====
section
/-! DEFINITION. The character-to-8-bit expander and the packer (R54, R100 to R102), the separator, and slices
of bit strings (R12). -/

namespace Sys2Proof.Machine

/-- `SEP`, the separator, the ASCII comma: a constant of the field-order multiplexer, not in the ROM
(R10, R51). The spec marks its value as general knowledge: PRESUMED (assumption log 6). -/
def sep : Byte := 0x2C#8

/-- `bits8(c)`, most significant bit first (R100). -/
def bits8 (c : Byte) : List Bit :=
  [c.getLsbD 7, c.getLsbD 6, c.getLsbD 5, c.getLsbD 4, c.getLsbD 3, c.getLsbD 2, c.getLsbD 1, c.getLsbD 0]

/-- `pack8(b)` for `|b| = 8`: `acc <- 2*acc + b[i]` from the first bit on (R101). -/
def pack8 (b : List Bit) : Byte :=
  b.foldl (fun acc x => 2#8 * acc + (if x then 1#8 else 0#8)) 0#8

/-- `concatMap bits8 s` (R12, R103). -/
def expand (s : List Byte) : List Bit := s.flatMap bits8

/-- `groups8(r)`: each eight bits packed, in order (R102). The spec defines it for `|r|` a multiple of 8 and
no rule applies it elsewhere (R109); bits after the last whole group are not part of any group: DESIGN CHOICE
(assumption log 8). -/
def groups8 : List Bit → List Byte
  | b0 :: b1 :: b2 :: b3 :: b4 :: b5 :: b6 :: b7 :: rest =>
    pack8 [b0, b1, b2, b3, b4, b5, b6, b7] :: groups8 rest
  | _ => []

/-- `s[i ..< j]`, empty if `j <= i` (R12). -/
def slice {α : Type} (s : List α) (i j : Nat) : List α := (s.take j).drop i

end Sys2Proof.Machine
end

