-- ==== Sys2Proof/Machine/Ops.lean ====
section
/-! DEFINITION. The shared operations: the marker ROM, the RX frame buffer, queueing TX bits, recording a
command error, and reset. -/

namespace Sys2Proof.Machine

/-- Sequencing: go on from a next state, and stay stopped otherwise. -/
def andThen (r : Result) (k : State → Result) : Result :=
  match r with
  | .next s => k s
  | .fault f => .fault f
  | .refused f => .refused f

/-- The ROM's contents: START marker, creator tag, END marker, at addresses `0 ..< L_OVH` (R51). -/
def rom (c : Config) : List Byte := c.startStr ++ c.creatorStr ++ c.endStr

/-- `RomRead(a)`: byte `a` of the ROM, whose contents are any legal strings (assumption log 1); no byte for `a >= L_OVH`, an address no rule reads (R51). -/
def romRead (c : Config) (a : Nat) : Option Byte := (rom c)[a]?

/-- The bytes read at addresses `lo ..< hi`, in increasing address order (R133). -/
def romRange (c : Config) (lo hi : Nat) : List Byte :=
  (List.range' lo (hi - lo)).filterMap (romRead c)

/-- The RX frame buffer holds at most `8 * N_RXBUF` bits (R26, R53): the canonical form of the block's one
writable memory. -/
def Memory.wf (c : Config) (bits : List Bit) : Bool := decide (bits.length ≤ 8 * c.nRxBuf)

/-- Write one bit to the RX frame buffer: at position `|bits|` while room remains (R156), dropped otherwise.
Answers the contents and whether the bit was dropped (R140, R143). -/
def Memory.write (c : Config) (bits : List Bit) (b : Bit) : List Bit × Bool :=
  if bits.length < 8 * c.nRxBuf then (bits ++ [b], false) else (bits, true)

/-- `raise CmdError(cause, w)`: the first error since the last clear is recorded, a later one is not (R171). -/
def raiseCmdError (cause : CmdCause) (w : Word) (s : State) : State :=
  if s.cmdErr then s else { s with cmdErr := true, cmdCause := cause, errWord := w }

/-- Queue the bits of `bytes` on the TX path and set the field pointer and the END qualifier (R120 to R124). -/
def queueTx (field : TxField) (bytes : List Byte) (isEnd : Bool) (s : State) : State :=
  { s with txField := field, txPend := expand bytes, txPendEnd := isEnd }

/-- What offering a TX-class word does: it is held, with no change, while TX bits are pending (R37, R196), and
performed otherwise. Answering the same state for a held word is a DESIGN CHOICE (assumption log 9). -/
def offerTx (perform : State → State) (s : State) : Result :=
  if s.txPend = [] then .next (perform s) else .next s

/-- The effect of an edge with `rst` = 1: every variable of the block takes its reset value (R44, R190). The
constants of the block are not reset (R49), and the environment's two lists are not the block's. -/
def resetBlock (s : State) : State :=
  { State.reset with cfg := s.cfg, edges := s.edges, trace := s.trace }

/-- Note a transfer in the environment's list. -/
def record (t : Transfer) (s : State) : State := { s with trace := s.trace ++ [t] }

end Sys2Proof.Machine
end

