-- ==== Sys2Proof/Machine/Control.lean ====
section
/-! DEFINITION. The control commands and illegal words (R160 to R163). -/

namespace Sys2Proof.Machine

/-- `NOP` (R160): no state change, in every state, never held. -/
def execNop (s : State) : Result := .next s

/-- `CLRSTAT` (R162): clear the error and result fields; never held. -/
def execClrstat (s : State) : Result :=
  .next { s with cmdErr := false, cmdCause := .none, errWord := 0x0000#16, rxResult := .none }

/-- An illegal word (R163): accepted at once, recorded, no other effect. -/
def execIllegal (w : Word) (s : State) : Result := .next (raiseCmdError .illegal w s)

end Sys2Proof.Machine
end

