-- ==== Sys2Proof/Machine/Tx.lean ====
section
/-! DEFINITION. The TX path: the legality table, the four TX-class commands (R120 to R125) and the TX line
transfer (R127). -/

namespace Sys2Proof.Machine

/-- R125's table: the field pointer after a TX-class command that is performed, `none` where it raises
SEQUENCE. A control command is not in the table. -/
def nextTxField : TxField → Instr → Option TxField
  | .idle, .txbegin => some .country
  | .country, .txchar _ => some .country
  | .text, .txchar _ => some .text
  | .country, .txsep => some .text
  | .text, .txend => some .idle
  | _, _ => none

/-- `TXBEGIN` (R121): queue the START marker and the creator tag, ROM addresses `0 ..< L_S + L_C`. -/
def execTxbegin (s : State) : Result :=
  offerTx (fun s =>
    if s.txField = .idle then queueTx .country (romRange s.cfg 0 (s.cfg.lS + s.cfg.lC)) false s
    else raiseCmdError .sequence (encode .txbegin) s) s

/-- `TXCHAR d` (R122): queue one character of the open user field; `tx_field` does not change. -/
def execTxchar (d : Byte) (s : State) : Result :=
  offerTx (fun s =>
    if s.txField = .country ∨ s.txField = .text then queueTx s.txField [d] false s
    else raiseCmdError .sequence (encode (.txchar d)) s) s

/-- `TXSEP` (R123): queue the separator and open the text. -/
def execTxsep (s : State) : Result :=
  offerTx (fun s =>
    if s.txField = .country then queueTx .text [sep] false s
    else raiseCmdError .sequence (encode .txsep) s) s

/-- `TXEND` (R124): queue the END marker, ROM addresses `L_S + L_C ..< L_OVH`, and close the frame. -/
def execTxend (s : State) : Result :=
  offerTx (fun s =>
    if s.txField = .text then queueTx .idle (romRange s.cfg (s.cfg.lS + s.cfg.lC) s.cfg.lOvh) true s
    else raiseCmdError .sequence (encode .txend) s) s

/-- The effect of a TX line transfer on the state: the head of `tx_pend` leaves; `tx_pend_end` falls with the
last pending bit (R127). -/
def txLineTransfer (s : State) : State :=
  { s with
    txPend := s.txPend.tail
    txPendEnd := if s.txPend.length = 1 then false else s.txPendEnd }

end Sys2Proof.Machine
end

