-- ==== Sys2Proof/Machine/Dispatch.lean ====
section
/-! DEFINITION. What offering each command word on the command port does, one arm per instruction. -/

namespace Sys2Proof.Machine

-- Every instruction of the opcode table has its meaning.
def exec (i : Instr) (s : State) : Host.Outcome State Fault Refusal :=
  match i with
  | .nop => Sys2Proof.Machine.execNop s
  | .txbegin => Sys2Proof.Machine.execTxbegin s
  | .txchar d => Sys2Proof.Machine.execTxchar d s
  | .txsep => Sys2Proof.Machine.execTxsep s
  | .txend => Sys2Proof.Machine.execTxend s
  | .clrstat => Sys2Proof.Machine.execClrstat s

end Sys2Proof.Machine
end

