-- ==== Sys2Proof/Machine/Codec.lean ====
section
/-! DEFINITION. The source's pure functions: Encode, Decode, the field-order demultiplexer's tags and items, the
unit decode (R103 to R109, R144), and the relation to the byte wire (R56). -/

namespace Sys2Proof.Machine

/-- `FrameBytes(country, text)` (R103). -/
def frameBytes (c : Config) (country text : List Byte) : List Byte :=
  c.startStr ++ c.creatorStr ++ country ++ [sep] ++ text ++ c.endStr

/-- `Encode(country, text)` (R103). -/
def encodeFrame (c : Config) (country text : List Byte) : List Bit := expand (frameBytes c country text)

/-- What `Decode` returns (R107). -/
structure Fields where
  start : List Byte
  creator : List Byte
  payload : List Byte
  ending : List Byte
deriving DecidableEq, Repr

/-- The domain of `Decode`: whole bytes, at least `L_OVH` of them (R107, R109). -/
def inDecodeDomain (c : Config) (bits : List Bit) : Bool :=
  decide (bits.length % 8 = 0) && decide (8 * c.lOvh ≤ bits.length)

/-- `Decode(bits)`, in the source's own steps; no result outside the domain (R107, R109). -/
def decodeFrame (c : Config) (bits : List Bit) : Option Fields :=
  if inDecodeDomain c bits then
    let totalLen := bits.length
    let startLen := 8 * c.lS
    let creatorLen := 8 * c.lC
    let endLen := 8 * c.lE
    let payloadLen := totalLen - startLen - creatorLen - endLen
    let endAt := startLen + creatorLen + payloadLen
    some
      { start := groups8 (slice bits 0 startLen)
        creator := groups8 (slice bits startLen (startLen + creatorLen))
        payload := groups8 (slice bits (startLen + creatorLen) endAt)
        ending := groups8 (slice bits endAt totalLen) }
  else none

/-- `fieldOf(k)` for a decoded unit of `m` bytes; the payload length is inferred as `m - L_OVH` (R106). -/
def fieldOf (c : Config) (m k : Nat) : Field :=
  if k < c.lS then .start
  else if k < c.lS + c.lC then .creator
  else if k < c.lS + c.lC + (m - c.lOvh) then .payload
  else .endMarker

/-- `flast(k)`: byte `k` is the last of its field (R106). -/
def flastOf (c : Config) (m k : Nat) : Bool :=
  match fieldOf c m k with
  | .start => decide (k + 1 = c.lS)
  | .creator => decide (k + 1 = c.lS + c.lC)
  | .payload => decide (k + 1 = c.lS + c.lC + (m - c.lOvh))
  | .endMarker => decide (k + 1 = m)

/-- The item of byte `b` at index `k` of a unit of `m` bytes (R106, R108). -/
def itemAt (c : Config) (m : Nat) (b : Byte) (k : Nat) : Item :=
  { byte := b, field := fieldOf c m k, flast := flastOf c m k, last := decide (k + 1 = m) }

/-- `Items(bits)` (R108). -/
def itemsOf (c : Config) (bits : List Bit) : List Item :=
  (groups8 bits).zipIdx.map fun p => itemAt c (groups8 bits).length p.1 p.2

/-- `UnitDecode(bits, ovf)`: OVERFLOW before PARTIAL before SHORT, else OK with the items (R144, R180). -/
def unitDecode (c : Config) (bits : List Bit) (ovf : Bool) : RxResult × List Item :=
  if ovf then (.overflow, [])
  else if bits.length % 8 ≠ 0 then (.partialUnit, [])
  else if bits.length < 8 * c.lOvh then (.short, [])
  else (.ok, itemsOf c bits)

/-- The wire bytes of a bit string of whole bytes, packed 8 per byte, most significant bit first (R56); the
packing is the transport adapter's. -/
def wireBytes (bits : List Bit) : List Byte := groups8 bits

/-- A bit string as transferred on a line port: each bit with its `last`, which is 1 on the final bit when
`closes` holds and 0 elsewhere (R38, R39, R129). -/
def beats (closes : Bool) : List Bit → List (Bit × Bool)
  | [] => []
  | b :: rest => (b, closes && rest.isEmpty) :: beats closes rest

end Sys2Proof.Machine
end

