-- ==== Sys2Proof/Machine/Flags.lean ====
section
/-! DEFINITION. The numeric encodings of state values (R23, R28, R29, R31, R82) and the status word (R33). -/

namespace Sys2Proof.Machine

/-- `TX_FIELD`: IDLE 0, COUNTRY 1, TEXT 2 (R23). -/
def TxField.code : TxField → BitVec 2
  | .idle => 0#2
  | .country => 1#2
  | .text => 2#2

/-- `out_field`: START 0, CREATOR 1, PAYLOAD 2, END 3 (R28, R82). -/
def Field.code : Field → BitVec 2
  | .start => 0#2
  | .creator => 1#2
  | .payload => 2#2
  | .endMarker => 3#2

/-- `RX_RESULT`: NONE 0, OK 1, SHORT 2, PARTIAL 3, OVERFLOW 4 (R29). -/
def RxResult.code : RxResult → BitVec 3
  | .none => 0#3
  | .ok => 1#3
  | .short => 2#3
  | .partialUnit => 3#3
  | .overflow => 4#3

/-- `CMD_CAUSE`: NONE 0, ILLEGAL 1, SEQUENCE 2 (R31). -/
def CmdCause.code : CmdCause → BitVec 2
  | .none => 0#2
  | .illegal => 1#2
  | .sequence => 2#2

/-- `TX_BUSY` (R33). -/
def txBusy (s : State) : Bool := !s.txPend.isEmpty
/-- `RX_BUSY` (R33). -/
def rxBusy (s : State) : Bool := !s.rxOut.isEmpty
/-- `RX_ACTIVE` (R33). -/
def rxActive (s : State) : Bool := !s.rxBits.isEmpty || s.rxOvf

/-- `STATUS`, from its most significant field (`ERR_WORD`, bits 31:16) down to `TX_BUSY`, bit 0 (R33). -/
def status (s : State) : StatusWord :=
  s.errWord ++ 0#4 ++ BitVec.ofBool s.rxOvf ++ s.rxResult.code ++ BitVec.ofBool (rxActive s)
    ++ BitVec.ofBool (rxBusy s) ++ s.cmdCause.code ++ BitVec.ofBool s.cmdErr ++ s.txField.code
    ++ BitVec.ofBool (txBusy s)

end Sys2Proof.Machine
end

