-- ==== Sys2Proof/Machine/Ports.lean ====
section
/-! DEFINITION. The block's output signals, as functions of the state and of the inputs `rst` and `cmd_word`
(R36 to R41). -/

namespace Sys2Proof.Machine

/-- `cmd_ready` with `rst` = 0: a TX-class word is held while TX bits are pending (R37). -/
def cmdReady (w : Word) (s : State) : Bool := !(isTX w && !s.txPend.isEmpty)

/-- `tx_valid` with `rst` = 0 (R38). -/
def txValid (s : State) : Bool := !s.txPend.isEmpty

/-- `tx_bit` with `rst` = 0: the head of `tx_pend`, 0 when there is none (R38). -/
def txBit (s : State) : Bit := s.txPend.headD false

/-- `tx_last` with `rst` = 0 (R38). -/
def txLast (s : State) : Bool := s.txPendEnd && decide (s.txPend.length = 1)

/-- `rx_ready` with `rst` = 0 (R39). -/
def rxReady (s : State) : Bool := s.rxOut.isEmpty

/-- `out_valid` with `rst` = 0 (R40). -/
def outValid (s : State) : Bool := !s.rxOut.isEmpty

/-- The output signals of the block (R36). -/
structure Outputs where
  cmdReady : Bool
  status : StatusWord
  txValid : Bool
  txBit : Bit
  txLast : Bool
  rxReady : Bool
  outValid : Bool
  outByte : Byte
  outField : BitVec 2
  outFlast : Bool
  outLast : Bool
deriving DecidableEq, Repr

/-- The output signals during the cycle with state `s` and inputs `p`. While `rst` = 1 every valid and ready is
0 (R41), and the data of a port whose valid is 0 is 0 (R38, R40, R206); `status` is driven at all times (R33). -/
def outputs (p : Inputs) (s : State) : Outputs where
  cmdReady := !p.rst && cmdReady p.cmdWord s
  status := status s
  txValid := !p.rst && txValid s
  txBit := !p.rst && txBit s
  txLast := !p.rst && txLast s
  rxReady := !p.rst && rxReady s
  outValid := !p.rst && outValid s
  outByte := if p.rst then 0x00#8 else (s.rxOut.head?.map Item.byte).getD 0x00#8
  outField := if p.rst then 0#2 else (s.rxOut.head?.map fun i => i.field.code).getD 0#2
  outFlast := !p.rst && (s.rxOut.head?.map Item.flast).getD false
  outLast := !p.rst && (s.rxOut.head?.map Item.last).getD false

end Sys2Proof.Machine
end

