-- ==== Sys2Proof/Machine/Rx.lean ====
section
/-! DEFINITION. The RX path: the RX line transfer with the unit decode (R140 to R145) and the output transfer
(R150). -/

namespace Sys2Proof.Machine

/-- The end of a unit whose bits and overflow mark are `bits` and `ovf`: the result and the items are written,
the buffer is emptied (R145). -/
def endUnit (bits : List Bit) (ovf : Bool) (s : State) : State :=
  { s with
    rxResult := (unitDecode s.cfg bits ovf).1
    rxOut := (unitDecode s.cfg bits ovf).2
    rxBits := []
    rxOvf := false }

/-- The effect of an RX line transfer of bit `b` with `rx_last` = `l` (R140). -/
def rxLineTransfer (b : Bit) (l : Bool) (s : State) : State :=
  let kept := Memory.write s.cfg s.rxBits b
  let ovf := s.rxOvf || kept.2
  if l then endUnit kept.1 ovf s else { s with rxBits := kept.1, rxOvf := ovf }

/-- The effect of an output transfer: the head item leaves (R150). -/
def outputTransfer (s : State) : State := { s with rxOut := s.rxOut.tail }

end Sys2Proof.Machine
end

