-- ==== Sys2Proof/Machine/Transfers.lean ====
section
/-! DEFINITION. The transfers of the four ports and one clock edge (R16, R41 to R43, R190). -/

namespace Sys2Proof.Machine

/-- A word the command port has accepted: decoded, then performed or recorded as illegal (R78, R163). -/
def performWord (w : Word) (s : State) : Result :=
  match decodeCmd w with
  | .ok i => exec i s
  | .error e => execIllegal e.word s

/-- The effect of one transfer (R16). -/
def Transfer.effect (t : Transfer) (s : State) : Result :=
  match t with
  | .reset => .next (resetBlock s)
  | .command w => performWord w s
  | .txLine _ _ => .next (txLineTransfer s)
  | .rxLine b l => .next (rxLineTransfer b l s)
  | .output _ => .next (outputTransfer s)

/-- A transfer may happen in a state: its port's valid and ready conditions hold there (R37 to R40) and the
data a block's port delivers is the data it presents. Reset may happen in every state. -/
def Transfer.enabled (t : Transfer) (s : State) : Bool :=
  match t with
  | .reset => true
  | .command w => cmdReady w s
  | .txLine b l => txValid s && b == txBit s && l == txLast s
  | .rxLine _ _ => rxReady s
  | .output item => s.rxOut.head? == some item

/-- A transfer noted in the environment's list and performed. -/
def Transfer.fire (t : Transfer) (s : State) : Result := t.effect (record t s)

/-- Transfers performed one after the other. -/
def fireAll : List Transfer → State → Result
  | [], s => .next s
  | t :: ts, s => andThen (t.fire s) (fireAll ts)

/-- The command-port transfer of an edge, if there is one (R37, R41). -/
def commandTransfer (p : Inputs) (s : State) : List Transfer :=
  if p.cmdValid && (outputs p s).cmdReady then [.command p.cmdWord] else []

/-- The TX-line transfer of an edge, if there is one (R38, R41). -/
def txTransfer (p : Inputs) (s : State) : List Transfer :=
  if (outputs p s).txValid && p.txReady then [.txLine (outputs p s).txBit (outputs p s).txLast] else []

/-- The RX-line transfer of an edge, if there is one (R39, R41). -/
def rxTransfer (p : Inputs) (s : State) : List Transfer :=
  if p.rxValid && (outputs p s).rxReady then [.rxLine p.rxBit p.rxLast] else []

/-- The output-port transfer of an edge, if there is one (R40, R41). -/
def outTransfer (p : Inputs) (s : State) : List Transfer :=
  if (outputs p s).outValid && p.outReady then s.rxOut.head?.toList.map .output else []

/-- What happens at an edge, decided from the state at the start of the cycle, in the order command, TX line,
RX line, output (R42); with `rst` = 1, reset alone (R190). -/
def edgeTransfers (p : Inputs) (s : State) : List Transfer :=
  (if p.rst then [.reset] else [])
    ++ commandTransfer p s ++ txTransfer p s ++ rxTransfer p s ++ outTransfer p s

/-- One rising edge of `clk` with inputs `p`. -/
def clockEdge (p : Inputs) (s : State) : Result := fireAll (edgeTransfers p s) s

/-- Take the next edge's inputs from the environment and perform that edge. When no edge is scheduled no agent
offers a transfer, and the block "simply holds its state" (R189; assumption log 2). -/
def nextEdge (s : State) : Result :=
  match s.edges with
  | [] => .next s
  | p :: rest => clockEdge p { s with edges := rest }

/-- An edge at which only the host offers, and offers `w`. -/
def offerInputs (w : Word) : Inputs := { cmdValid := true, cmdWord := w }

/-- An edge at which only the TX sink is ready. -/
def sinkInputs : Inputs := { txReady := true }

/-- An edge at which only the RX source offers, a bit with its `rx_last`. -/
def rxInputs (beat : Bit × Bool) : Inputs := { rxValid := true, rxBit := beat.1, rxLast := beat.2 }

/-- An edge at which only the output sink is ready. -/
def drainInputs : Inputs := { outReady := true }

end Sys2Proof.Machine
end

