-- ==== Sys2Proof/Machine/Step.lean ====
section
/-! DEFINITION. One step: one clock edge with the environment's next inputs. -/

namespace Sys2Proof.Machine

/-- One step of the machine. -/
def step (s : State) : Host.Outcome State Fault Refusal := nextEdge s

/-- The state with the word `w` offered on the command port at the very next edge, at which no other agent
offers anything; the edges scheduled before come after it (assumption log 4). -/
def State.withFetchWord (s : State) (nbits w : Nat) : State :=
  { s with edges := offerInputs (BitVec.ofNat 16 (w % 2 ^ nbits)) :: s.edges }

end Sys2Proof.Machine
end

