-- ==== Sys2Proof/Machine/Asm.lean ====
section
/-! DEFINITION. The assembler of test programs (R86 to R88): the words of a line, the environment events as
scheduled edges, and the reader of one line of text. The assembler is not part of the block; it says which
words a program offers. -/

namespace Sys2Proof.Machine

/-- `TXSTR "s"`: `TXCHAR b` for each byte, in order (R87). -/
def txstr (s : List Byte) : List Instr := s.map .txchar

/-- `TXFRAME "country", "text"` (R88). -/
def txframe (country text : List Byte) : List Instr :=
  [.txbegin] ++ txstr country ++ [.txsep] ++ txstr text ++ [.txend]

/-- What a line of a test program does: offer words, or one of the environment's events (R86). -/
inductive AsmAction where
  | offer (w : Word)
  | sinkTx
  | rxLine (beat : Bit × Bool)
  | drain
deriving DecidableEq, Repr

/-- The actions of a line (R86 to R88). -/
def asmActions : AsmLine → List AsmAction
  | .nop => [.offer (encode .nop)]
  | .txbegin => [.offer (encode .txbegin)]
  | .txchar imm8 => [.offer (encode (.txchar (BitVec.ofNat 8 imm8)))]
  | .txsep => [.offer (encode .txsep)]
  | .txend => [.offer (encode .txend)]
  | .clrstat => [.offer (encode .clrstat)]
  | .word imm16 => [.offer (BitVec.ofNat 16 imm16)]
  | .txstr s => (txstr s).map fun i => .offer (encode i)
  | .txframe country text => (txframe country text).map fun i => .offer (encode i)
  | .sinkTx => [.sinkTx]
  | .rxBytes bytes => (beats true (expand bytes)).map .rxLine
  | .rxBits bits last => (beats last bits).map .rxLine
  | .drain => [.drain]

/-- The edges an action takes from a state: one per offered word or received bit, and one per pending bit or
item for `sink tx` and `drain`. A word that meets `cmd_ready` = 0 at its edge, and a bit of an `rx` line that meets
`rx_ready` = 0 at its edge because items are pending, is not offered again: DESIGN CHOICE (assumption log 11). -/
def AsmAction.edges (a : AsmAction) (s : State) : List Inputs :=
  match a with
  | .offer w => [offerInputs w]
  | .sinkTx => List.replicate s.txPend.length sinkInputs
  | .rxLine beat => [rxInputs beat]
  | .drain => List.replicate s.rxOut.length drainInputs

/-- The edges of a list, one after another, from a state. -/
def playEdges : List Inputs → State → Result
  | [], s => .next s
  | p :: ps, s => andThen (clockEdge p s) (playEdges ps)

/-- The actions of a test program, one after another; each is given the edges it takes from the state it starts
in (R86; section 3 of 95_test_vectors.md). -/
def playActions : List AsmAction → State → Result
  | [], s => .next s
  | a :: rest, s => andThen (playEdges (a.edges s) s) (playActions rest)

/-- A test program from a state. -/
def playProgram (lines : List AsmLine) (s : State) : Result := playActions (lines.flatMap asmActions) s

/-- A token of a line. -/
inductive AsmToken where
  | name (cs : List Char)
  | char (c : Char)
  | str (cs : List Char)
  | comma
deriving DecidableEq, Repr

/-- Characters that end a name. The spec gives no rule for splitting a line: DESIGN CHOICE (assumption log 11). -/
def endsName (c : Char) : Bool := c == ' ' || c == '\t' || c == ',' || c == ';' || c == '"' || c == '\''

/-- Put a character in front of the name that a token list begins with. -/
def consName (c : Char) : Bool → List AsmToken → List AsmToken
  | true, .name cs :: rest => .name (c :: cs) :: rest
  | _, rest => .name [c] :: rest

/-- Read a string literal up to its closing quote; `none` when it is not closed. -/
def takeString : List Char → Option (List Char × List Char)
  | [] => none
  | c :: cs => if c = '"' then some ([], cs) else (takeString cs).map fun p => (c :: p.1, p.2)

/-- Split a line into tokens; `;` starts a comment (R86). The fuel bounds the number of tokens read. -/
def tokensFuel : Nat → List Char → Option (List AsmToken)
  | 0, _ => none
  | _ + 1, [] => some []
  | fuel + 1, c :: cs =>
    if c = ' ' ∨ c = '\t' then tokensFuel fuel cs
    else if c = ';' then some []
    else if c = ',' then (tokensFuel fuel cs).map (.comma :: ·)
    else if c = '"' then
      match takeString cs with
      | some (s, rest) => (tokensFuel fuel rest).map (.str s :: ·)
      | none => none
    else if c = '\'' then
      match cs with
      | x :: '\'' :: rest => (tokensFuel fuel rest).map (.char x :: ·)
      | _ => none
    else (tokensFuel fuel cs).map (consName c (cs.headD ' ' |> fun d => !endsName d))

/-- The tokens of a line. -/
def tokens (cs : List Char) : Option (List AsmToken) := tokensFuel (cs.length + 1) cs

/-- The value of a digit in a base up to 16. -/
def digitValue (base : Nat) (c : Char) : Option Nat :=
  let v :=
    if '0' ≤ c ∧ c ≤ '9' then c.toNat - 48
    else if 'a' ≤ c ∧ c ≤ 'f' then c.toNat - 87
    else if 'A' ≤ c ∧ c ≤ 'F' then c.toNat - 55
    else base
  if v < base then some v else none

/-- The value of a digit string; `none` when a character is no digit of the base. -/
def digitsValue (base : Nat) (cs : List Char) : Option Nat :=
  cs.foldl (fun acc c => acc.bind fun a => (digitValue base c).map fun d => base * a + d) (some 0)

/-- A number in decimal or, after `0x`, in hex (R86). -/
def readNumber : List Char → Option Nat
  | [] => none
  | ['0', 'x'] => none
  | '0' :: 'x' :: cs => digitsValue 16 cs
  | cs => digitsValue 10 cs

/-- The ASCII code of a character, `none` outside ASCII (R12, R86); the table is general knowledge: PRESUMED
(assumption log 12). -/
def asciiCode (c : Char) : Option Byte := if c.toNat < 128 then some (BitVec.ofNat 8 c.toNat) else none

/-- The ASCII codes of a string's characters (R12). -/
def asciiCodes (cs : List Char) : Option (List Byte) := cs.mapM asciiCode

/-- Bytes written as pairs of hex digits with spaces between them (R86's `rx "hex bytes"`). -/
def readHexBytes : List Char → Option (List Byte)
  | [] => some []
  | ' ' :: cs => readHexBytes cs
  | [_] => none
  | h :: l :: cs => do
    let hi ← digitValue 16 h
    let lo ← digitValue 16 l
    let rest ← readHexBytes cs
    return BitVec.ofNat 8 (16 * hi + lo) :: rest

/-- Bits written as `0` and `1` (R86's `rx bits "0101..."`). -/
def readBits (cs : List Char) : Option (List Bit) :=
  cs.mapM fun c => if c = '0' then some false else if c = '1' then some true else none

/-- Read a tokenized line; `none` for a line that is not of R86's, R87's or R88's syntax. -/
def readTokens : List AsmToken → Option AsmLine
  | .name n :: rest =>
    let m := n.map Char.toLower
    if m = "nop".toList ∧ rest = [] then some .nop
    else if m = "txbegin".toList ∧ rest = [] then some .txbegin
    else if m = "txsep".toList ∧ rest = [] then some .txsep
    else if m = "txend".toList ∧ rest = [] then some .txend
    else if m = "clrstat".toList ∧ rest = [] then some .clrstat
    else if m = "drain".toList ∧ rest = [] then some .drain
    else if m = "txchar".toList then
      match rest with
      | [.name k] => (readNumber k).map .txchar
      | [.char c] => (asciiCode c).map fun b => .txchar b.toNat
      | _ => none
    else if m = ".word".toList then
      match rest with
      | [.name k] => (readNumber k).map .word
      | _ => none
    else if m = "txstr".toList then
      match rest with
      | [.str s] => (asciiCodes s).map .txstr
      | _ => none
    else if m = "txframe".toList then
      match rest with
      | [.str country, .comma, .str text] => do
        let c ← asciiCodes country
        let t ← asciiCodes text
        return .txframe c t
      | _ => none
    else if m = "sink".toList then
      match rest with
      | [.name k] => if k = "tx".toList then some .sinkTx else none
      | _ => none
    else if m = "rx".toList then
      match rest with
      | [.str bytes, .name k] => if k = "last".toList then (readHexBytes bytes).map .rxBytes else none
      | [.name k, .str bits] =>
        if k = "bits".toList then (readBits bits).map fun b => .rxBits b false else none
      | [.name k, .str bits, .name l] =>
        if k = "bits".toList ∧ l = "last".toList then (readBits bits).map fun b => .rxBits b true else none
      | _ => none
    else none
  | _ => none

/-- Read one line of a test program: `none` when it is refused, `some none` for a blank or comment line, and a
line only if it is well formed (R86). -/
def readLine (cs : List Char) : Option (Option AsmLine) :=
  match tokens cs with
  | none => none
  | some [] => some none
  | some ts => (readTokens ts).bind fun l => if l.wellFormed then some (some l) else none

end Sys2Proof.Machine
end

