-- ==== Sys2Proof/Machine/Micro.lean ====
section
/-! DEFINITION. The reference microarchitecture of R48 (informative): a ROM pointer and shift register for TX, a
byte memory and an accumulator for RX, a read pointer for the output port, and the abstraction of each to the
architectural state. No step of the machine uses it; statements relate it to the architectural lists. -/

namespace Sys2Proof.Machine

/-- The serializer: ROM pointer `rp`, limit `rl`, shift register `sh`, count `shn` in 0..8 (R48). -/
structure TxMicro where
  rp : Nat
  rl : Nat
  sh : Byte
  shn : Nat
deriving DecidableEq, Repr

/-- The abstraction to `tx_pend`: the `shn` bits left in the shift register, then the unread ROM bytes (R48). -/
def TxMicro.pending (c : Config) (m : TxMicro) : List Bit :=
  (bits8 m.sh).take m.shn ++ expand (romRange c m.rp m.rl)

/-- `TXBEGIN` and `TXEND` load a ROM range into `rp`/`rl` (R48). -/
def TxMicro.loadRom (lo hi : Nat) (m : TxMicro) : TxMicro := { m with rp := lo, rl := hi }

/-- `TXCHAR` and `TXSEP` load their byte into `sh` with `shn` = 8 (R48); `rp` and `rl` stay: DEDUCED
(assumption log 10). -/
def TxMicro.loadByte (b : Byte) (m : TxMicro) : TxMicro := { m with sh := b, shn := 8 }

/-- The internal activity: when `shn` = 0 and `rp < rl`, the next ROM byte is taken (R48). -/
def TxMicro.reload (c : Config) (m : TxMicro) : TxMicro :=
  if m.shn = 0 ∧ m.rp < m.rl then
    match romRead c m.rp with
    | some b => { m with sh := b, rp := m.rp + 1, shn := 8 }
    | none => m
  else m

/-- A TX line transfer shifts `sh` left by one and decrements `shn` (R48). -/
def TxMicro.shift (m : TxMicro) : TxMicro := { m with sh := m.sh <<< 1, shn := m.shn - 1 }

/-- The deserializer: byte memory `buf`, byte count `nb`, accumulator `acc`, count `na` in 0..7 (R48). -/
structure RxMicro where
  buf : List Byte
  nb : Nat
  acc : Byte
  na : Nat
deriving DecidableEq, Repr

/-- The abstraction to `rx_bits`: the bits of `buf[0 ..< nb]`, then `acc[na-1]` down to `acc[0]` (R48). -/
def RxMicro.kept (m : RxMicro) : List Bit :=
  expand (m.buf.take m.nb) ++ ((List.range m.na).reverse.map fun i => m.acc.getLsbD i)

/-- A kept bit shifts into `acc` from the right; at `na` = 8 the byte moves to `buf[nb]` (R48). -/
def RxMicro.keep (b : Bit) (m : RxMicro) : RxMicro :=
  let acc := (m.acc <<< 1) ||| (if b then 1#8 else 0#8)
  if m.na + 1 = 8 then { buf := m.buf.set m.nb acc, nb := m.nb + 1, acc := acc, na := 0 }
  else { m with acc := acc, na := m.na + 1 }

/-- The output list as a read pointer `rd` over `buf[0 ..< nb]`, with the tags computed from the index (R48). -/
def RxMicro.itemsFrom (c : Config) (m : RxMicro) (rd : Nat) : List Item :=
  ((m.buf.take m.nb).zipIdx.map fun p => itemAt c m.nb p.1 p.2).drop rd

end Sys2Proof.Machine
end

