-- ==== Sys2Proof/Safety.lean ====
section
/-! DEFINITION. What claims are stated in: the invariant of R45, the transfers of a run seen port by port, what a
sequence of accepted words puts on the TX line, what a sequence of accepted bits decodes to, and two blocks
joined by a line. -/

namespace Sys2Proof.Machine

/-- R45 (a) to (e), with the bound on the frame buffer (R26). Clause (f) holds by the types. -/
structure Inv (s : State) : Prop where
  /-- (a) -/
  endPending : s.txPendEnd = true → s.txField = .idle ∧ s.txPend ≠ []
  /-- (b) -/
  pendBound : s.txPend.length ≤ 8 * max (s.cfg.lS + s.cfg.lC) (max 1 s.cfg.lE)
  /-- (c) -/
  itemsPending : s.rxOut ≠ [] → s.rxBits = [] ∧ s.rxOvf = false ∧ (s.rxResult = .ok ∨ s.rxResult = .none)
  /-- (d) -/
  overflowFull : s.rxOvf = true → s.rxBits.length = 8 * s.cfg.nRxBuf
  /-- R26: `|rx_bits| <= 8 * N_RXBUF`. -/
  bufferBound : Memory.wf s.cfg s.rxBits = true
  /-- (e), no error recorded -/
  noError : s.cmdErr = false → s.cmdCause = .none ∧ s.errWord = 0x0000#16
  /-- (e), an error recorded -/
  errorRecorded : s.cmdErr = true → (s.cmdCause = .illegal ∨ s.cmdCause = .sequence) ∧ s.errWord ≠ 0x0000#16

/-- The undelivered items end with the one marked `last`, and no other is marked (R106, R151). -/
def ItemsClosed (s : State) : Prop :=
  s.rxOut.map Item.last = List.replicate (s.rxOut.length - 1) false ++ List.replicate (min 1 s.rxOut.length) true

/-- Transfers each of which is enabled in the state the ones before it lead to (R43). -/
def EnabledInTurn : List Transfer → State → Prop
  | [], _ => True
  | t :: ts, s => t.enabled s = true ∧ ∀ s', t.fire s = .next s' → EnabledInTurn ts s'

/-- `k` steps from `s` (Host.Core.run of the machine). -/
def runSteps (k : Nat) (s : State) : Result := Host.Core.run Sys2Proof.core k s

/-- No reset among the next `k` edges. -/
def noReset (k : Nat) (s : State) : Bool := (s.edges.take k).all fun p => !p.rst

/-- The words the command port accepted, in order. -/
def commandsOf (ts : List Transfer) : List Word :=
  ts.filterMap fun | .command w => some w | .reset => none | .txLine _ _ => none | .rxLine _ _ => none
                   | .output _ => none

/-- The bits the TX sink took, each with `tx_last`. -/
def txBeatsOf (ts : List Transfer) : List (Bit × Bool) :=
  ts.filterMap fun | .txLine b l => some (b, l) | .reset => none | .command _ => none | .rxLine _ _ => none
                   | .output _ => none

/-- The bits the RX line port accepted, each with `rx_last`. -/
def rxBeatsOf (ts : List Transfer) : List (Bit × Bool) :=
  ts.filterMap fun | .rxLine b l => some (b, l) | .reset => none | .command _ => none | .txLine _ _ => none
                   | .output _ => none

/-- The items the output sink took. -/
def itemsTaken (ts : List Transfer) : List Item :=
  ts.filterMap fun | .output i => some i | .reset => none | .command _ => none | .txLine _ _ => none
                   | .rxLine _ _ => none

/-- The bytes of the items of one field, in order (R108, R151). -/
def fieldBytes (f : Field) (items : List Item) : List Byte :=
  (items.filter fun i => i.field = f).map Item.byte

/-- The TX-class commands that accepted words perform from a field state, by R125's table: rejected words, and
words that are not TX-class, perform none. -/
def performedFrom : TxField → List Word → List Instr
  | _, [] => []
  | f, w :: ws =>
    match decodeCmd w with
    | .error _ => performedFrom f ws
    | .ok i =>
      match nextTxField f i with
      | some f' => i :: performedFrom f' ws
      | none => performedFrom f ws

/-- The field state after accepted words (R125). -/
def fieldAfter : TxField → List Word → TxField
  | f, [] => f
  | f, w :: ws =>
    match decodeCmd w with
    | .error _ => fieldAfter f ws
    | .ok i => fieldAfter ((nextTxField f i).getD f) ws

/-- The bytes a performed command queues (R121 to R124). -/
def queuedBytes (c : Config) : Instr → List Byte
  | .txbegin => c.startStr ++ c.creatorStr
  | .txchar d => [d]
  | .txsep => [sep]
  | .txend => c.endStr
  | .nop => []
  | .clrstat => []

/-- The bits a performed command puts on the TX line; only `TXEND`'s end with `tx_last` = 1 (R129). -/
def lineOf (c : Config) (i : Instr) : List (Bit × Bool) := beats (decide (i = .txend)) (expand (queuedBytes c i))

/-- The bits still pending, as the TX line will carry them. -/
def pendingBeats (s : State) : List (Bit × Bool) := beats s.txPendEnd s.txPend

/-- The units completed by received bits, the first one begun with `open_` (R140, R142). -/
def unitsFrom : List Bit → List (Bit × Bool) → List (List Bit)
  | _, [] => []
  | open_, (b, l) :: rest => if l then (open_ ++ [b]) :: unitsFrom [] rest else unitsFrom (open_ ++ [b]) rest

/-- The outcome of a received unit: what fits the buffer is decoded, more is OVERFLOW (R143, R144). -/
def unitOutcome (c : Config) (u : List Bit) : RxResult × List Item :=
  unitDecode c (u.take (8 * c.nRxBuf)) (decide (8 * c.nRxBuf < u.length))

/-- The inputs of two blocks at one edge when the TX line of the one with state `a` feeds the RX line of the one
with state `b` (R155): bit, last, valid forward, ready back; neither is reset. -/
def lineJoined (a b : State) (p q : Inputs) : Bool :=
  !p.rst && !q.rst && q.rxValid == txValid a && q.rxBit == txBit a && q.rxLast == txLast a
    && p.txReady == rxReady b

/-- Two blocks run side by side for `k` edges with their line joined at every edge. One block looped back is the
case of two equal states. -/
def joinedFor : Nat → State → State → Bool
  | 0, _, _ => true
  | k + 1, a, b =>
    match a.edges, b.edges with
    | p :: _, q :: _ =>
      lineJoined a b p q &&
        match step a, step b with
        | .next a', .next b' => joinedFor k a' b'
        | _, _ => false
    | _, _ => false

/-- The schedule in which the host offers the words of `TXFRAME` and the TX sink takes every bit before the next
offer (R88, R202). -/
def frameSchedule (c : Config) (country text : List Byte) : List Inputs :=
  (txframe country text).flatMap fun i =>
    offerInputs (encode i) :: List.replicate (8 * (queuedBytes c i).length) sinkInputs

end Sys2Proof.Machine
end

