-- ==== Sys2Proof/Certificates/Slice0/Obligations.lean ====
section
/-! DEFINITION. The statements about the frame codec. Each docstring names the rule of the spec it formalises.
A command's result statement gives the exact next state, so it is also its frame: every field not named in the
update is unchanged.

Three fields of the state are the model's own. `cfg` is the constants of the built block (R49; assumption log 1).
`edges` holds the input signals of R36 at the coming clock edges (assumption log 2), and `trace` the transfers made
so far (assumption log 3): where a statement speaks of an edge's inputs it reads them from `edges`, and where it
speaks of transfers made it reads them from `trace`. No statement rests on what the three hold after reset. -/

open Sys2Proof Sys2Proof.Machine

/-! ## Command words -/

/-- R77, R78: an instruction is decoded from its own word and from no other. -/
def Obligations.DecodeAndEncodeAgree : Prop :=
  ∀ (w : Word) (i : Instr), i.wellFormed = true → (decodeCmd w = .ok i ↔ w = encode i)

/-- R77: words of the opcode table, written out, decode to their instructions. -/
def Obligations.OpcodeTableWordsDecode : Prop :=
  decodeCmd 0b0000000000000000#16 = .ok .nop ∧ decodeCmd 0b0001000000000000#16 = .ok .txbegin
    ∧ decodeCmd 0b0010000001001001#16 = .ok (.txchar 0x49#8) ∧ decodeCmd 0b0010000011111111#16 = .ok (.txchar 0xFF#8)
    ∧ decodeCmd 0b0011000000000000#16 = .ok .txsep ∧ decodeCmd 0b0100000000000000#16 = .ok .txend
    ∧ decodeCmd 0b0101000000000000#16 = .ok .clrstat

/-- R78: `isTX(w)` is true exactly when `w` decodes to a TX-class operation. -/
def Obligations.CommandPortTestIsTxClass : Prop :=
  ∀ w : Word, isTX w = true ↔ ∃ i, decodeCmd w = .ok i ∧ i.txClass = true

/-- R79: which words are illegal. -/
def Obligations.IllegalWordsByField : Prop :=
  ∀ w : Word, (∃ e, decodeCmd w = .error e) ↔
    (6 ≤ (opField w).toNat ∨ ((opField w).toNat ≤ 5 ∧ rsvField w ≠ 0#4)
      ∨ ((opField w).toNat ∈ [0, 1, 3, 4, 5] ∧ dataField w ≠ 0#8))

/-- R79: there are `65536 - 5 - 256 = 65275` illegal words: the legal ones can be listed, each once, and are
`5 + 256`. -/
def Obligations.IllegalWordCount : Prop :=
  ∃ legal : List Word, legal.Nodup ∧ (∀ w, w ∈ legal ↔ ∃ i, decodeCmd w = .ok i)
    ∧ legal.length = 5 + 256 ∧ 2 ^ 16 - legal.length = 65275

/-! ## Commands -/

/-- R160. -/
def Obligations.NopChangesNothing : Prop :=
  ∀ s : State, exec .nop s = .next s ∧ cmdReady 0x0000#16 s = true

/-- R121: in IDLE the frame is opened and START and CREATOR are queued; otherwise SEQUENCE. -/
def Obligations.TxbeginOpensTheFrame : Prop :=
  ∀ s : State, s.txPend = [] →
    (s.txField = .idle →
      ∃ t, exec .txbegin s = .next t
        ∧ t = { s with
                txField := .country
                txPend := expand (romRange s.cfg 0 (s.cfg.lS + s.cfg.lC))
                txPendEnd := false }
        ∧ t.txPend = expand (s.cfg.startStr ++ s.cfg.creatorStr)
        ∧ txBusy t = decide (0 < s.cfg.lS + s.cfg.lC))
    ∧ (s.txField ≠ .idle → exec .txbegin s = .next (raiseCmdError .sequence 0x1000#16 s))

/-- R122: in COUNTRY or TEXT the character's eight bits are queued; in IDLE, SEQUENCE. -/
def Obligations.TxcharQueuesTheCharacter : Prop :=
  ∀ (s : State) (d : Byte), s.txPend = [] →
    (s.txField = .country ∨ s.txField = .text →
      ∃ t, exec (.txchar d) s = .next t ∧ t = { s with txPend := bits8 d, txPendEnd := false }
        ∧ txBusy t = true)
    ∧ (s.txField = .idle →
        exec (.txchar d) s = .next (raiseCmdError .sequence (0x2000#16 + d.setWidth 16) s))

/-- R123: in COUNTRY the separator is queued and the text opened; otherwise SEQUENCE. -/
def Obligations.TxsepOpensTheText : Prop :=
  ∀ s : State, s.txPend = [] →
    (s.txField = .country →
      ∃ t, exec .txsep s = .next t
        ∧ t = { s with
                txField := .text
                txPend := [false, false, true, false, true, true, false, false]
                txPendEnd := false }
        ∧ txBusy t = true)
    ∧ (s.txField ≠ .country → exec .txsep s = .next (raiseCmdError .sequence 0x3000#16 s))

/-- R124: in TEXT the END marker is queued and the frame closed, and a following `TXBEGIN` is held; otherwise
SEQUENCE. -/
def Obligations.TxendClosesTheFrame : Prop :=
  ∀ s : State, s.txPend = [] →
    (s.txField = .text →
      ∃ t, exec .txend s = .next t
        ∧ t = { s with
                txField := .idle
                txPend := expand (romRange s.cfg (s.cfg.lS + s.cfg.lC) s.cfg.lOvh)
                txPendEnd := true }
        ∧ t.txPend = expand s.cfg.endStr ∧ txBusy t = true ∧ cmdReady 0x1000#16 t = false)
    ∧ (s.txField ≠ .text → exec .txend s = .next (raiseCmdError .sequence 0x4000#16 s))

/-- R162: `CLRSTAT` clears the error and result fields, in every state, and nothing else. -/
def Obligations.ClrstatClearsErrorAndResult : Prop :=
  ∀ s : State,
    exec .clrstat s
        = .next { s with cmdErr := false, cmdCause := .none, errWord := 0x0000#16, rxResult := .none }
      ∧ cmdReady 0x5000#16 s = true

/-- R171: the first error since the last clear is recorded, a later one changes nothing. -/
def Obligations.OnlyTheFirstErrorIsRecorded : Prop :=
  ∀ (s : State) (cause : CmdCause) (w : Word),
    (s.cmdErr = false →
      raiseCmdError cause w s = { s with cmdErr := true, cmdCause := cause, errWord := w })
    ∧ (s.cmdErr = true → raiseCmdError cause w s = s)

/-- R125, R120: a TX-class command outside its row of the legality table changes no TX state and raises SEQUENCE
with its own word. -/
def Obligations.OutOfOrderCommandsAreRejected : Prop :=
  ∀ (i : Instr) (s : State), i.txClass = true → s.txPend = [] → nextTxField s.txField i = none →
    exec i s = .next (if s.cmdErr then s else { s with cmdErr := true, cmdCause := .sequence, errWord := encode i })

/-- R125: a TX-class command in its row of the legality table moves the field pointer as the table says, queues
its bytes, and records no error. -/
def Obligations.InOrderCommandsArePerformed : Prop :=
  ∀ (i : Instr) (s : State) (f : TxField), s.txPend = [] → nextTxField s.txField i = some f →
    exec i s
      = .next { s with txField := f, txPend := expand (queuedBytes s.cfg i), txPendEnd := decide (i = .txend) }

/-- R196: while TX bits are pending a TX-class word is not accepted, and offering it changes nothing. (That `exec`
answers the unchanged state for a word the port does not accept is the model's choice, assumption log 9.) -/
def Obligations.TxWordsAreHeldWhilePending : Prop :=
  ∀ (i : Instr) (s : State), i.txClass = true → s.txPend ≠ [] →
    cmdReady (encode i) s = false ∧ exec i s = .next s

/-- What a command leaves unchanged, for every instruction: the RX path's buffer, overflow mark and items, the
ROM and the environment's lists (the model's own, assumption log 2 and 3) always; `rx_result` but for `CLRSTAT`; the TX state but for a TX-class command;
the field pointer but for `TXBEGIN`, `TXSEP`, `TXEND`; the error fields but for `CLRSTAT` and a rejected command. -/
def Obligations.CommandFrame : Prop :=
  ∀ (i : Instr) (s t : State), exec i s = .next t →
    t.cfg = s.cfg ∧ (∀ a, romRead t.cfg a = romRead s.cfg a)
      ∧ (∀ k : Nat, t.rxBits[k]? = s.rxBits[k]?) ∧ t.rxOvf = s.rxOvf ∧ t.rxOut = s.rxOut
      ∧ t.edges = s.edges ∧ t.trace = s.trace
      ∧ (i ≠ .clrstat → t.rxResult = s.rxResult)
      ∧ (i.txClass = false ∨ nextTxField s.txField i = none →
          t.txField = s.txField ∧ t.txPend = s.txPend ∧ t.txPendEnd = s.txPendEnd)
      ∧ ((∃ d, i = .txchar d) → t.txField = s.txField)
      ∧ (i = .nop ∨ (nextTxField s.txField i).isSome →
          t.cmdErr = s.cmdErr ∧ t.cmdCause = s.cmdCause ∧ t.errWord = s.errWord)

/-- R163, R172: an illegal word is accepted in every state, recorded as ILLEGAL if it is the first error, and
changes nothing else. -/
def Obligations.IllegalWordsAreRecorded : Prop :=
  ∀ (w : Word) (s : State), (∃ e, decodeCmd w = .error e) →
    cmdReady w s = true
      ∧ performWord w s
          = .next (if s.cmdErr then s else { s with cmdErr := true, cmdCause := .illegal, errWord := w })

/-- R161: a word that is not TX-class is accepted in every state and changes no TX state and no RX state but
`rx_result`. -/
def Obligations.OtherWordsAreNeverHeld : Prop :=
  ∀ (w : Word) (s : State), isTX w = false →
    cmdReady w s = true
      ∧ ∃ t, performWord w s = .next t
          ∧ t.txField = s.txField ∧ t.txPend = s.txPend ∧ t.txPendEnd = s.txPendEnd
          ∧ t.rxBits = s.rxBits ∧ t.rxOvf = s.rxOvf ∧ t.rxOut = s.rxOut

/-! ## One edge -/

/-- A step runs the accepted word in the state at the start of the cycle, and the edge's other transfers follow in
the order of R42: the decoded command is executed, and an illegal word, which is accepted in every state, is
recorded as ILLEGAL (R163). -/
def Obligations.StepRunsTheAcceptedCommand : Prop :=
  ∀ (s : State) (p : Inputs) (rest : List Inputs), s.edges = p :: rest → p.rst = false → p.cmdValid = true →
    (∀ i : Instr, cmdReady p.cmdWord s = true → decodeCmd p.cmdWord = .ok i →
      step s = andThen (exec i (record (.command p.cmdWord) { s with edges := rest }))
          (fireAll (txTransfer p s ++ rxTransfer p s ++ outTransfer p s))
        ∧ (p = offerInputs p.cmdWord →
            step s = exec i (record (.command p.cmdWord) { s with edges := rest })))
    ∧ (∀ e : IllegalWord, decodeCmd p.cmdWord = .error e →
      step s = fireAll (txTransfer p s ++ rxTransfer p s ++ outTransfer p s)
          (raiseCmdError .illegal p.cmdWord (record (.command p.cmdWord) { s with edges := rest }))
        ∧ (p = offerInputs p.cmdWord →
            step s = .next (raiseCmdError .illegal p.cmdWord
              (record (.command p.cmdWord) { s with edges := rest }))))

/-- A step with the host alone offering a word that is held uses up the edge and changes nothing else. -/
def Obligations.StepHoldsABusyCommand : Prop :=
  ∀ (s : State) (w : Word) (rest : List Inputs), s.edges = offerInputs w :: rest → cmdReady w s = false →
    step s = .next { s with edges := rest }

/-- R170: every step answers a next state. -/
def Obligations.EveryStepGoesOn : Prop :=
  ∀ s : State, ∃ t, step s = .next t

/-- R190, R44: at an edge with `rst` = 1 every variable takes its reset value, whatever the other inputs are, no
transfer happens, STATUS is 0, and the constants of the block stay; a second such edge changes no variable. -/
def Obligations.ResetEdgeResetsEverything : Prop :=
  ∀ (s : State) (p : Inputs) (rest : List Inputs), s.edges = p :: rest → p.rst = true →
    ∃ t, step s = .next t
      ∧ t.txField = .idle ∧ t.txPend = [] ∧ t.txPendEnd = false ∧ t.rxBits = [] ∧ t.rxOvf = false ∧ t.rxOut = []
      ∧ t.rxResult = .none ∧ t.cmdErr = false ∧ t.cmdCause = .none ∧ t.errWord = 0x0000#16
      ∧ status t = 0x00000000#32 ∧ t.cfg = s.cfg ∧ t.edges = rest ∧ t.trace = s.trace ++ [.reset]
      ∧ ∀ (q : Inputs) (rest' : List Inputs), rest = q :: rest' → q.rst = true →
          step t = .next { t with edges := rest', trace := t.trace ++ [.reset] }

/-- R44: the state a run starts from holds the reset value of every variable. -/
def Obligations.ResetStateValues : Prop :=
  State.reset.txField = .idle ∧ State.reset.txPend = [] ∧ State.reset.txPendEnd = false
    ∧ State.reset.rxBits = [] ∧ State.reset.rxOvf = false ∧ State.reset.rxOut = []
    ∧ State.reset.rxResult = .none ∧ State.reset.cmdErr = false ∧ State.reset.cmdCause = .none
    ∧ State.reset.errWord = 0x0000#16 ∧ status State.reset = 0x00000000#32

/-- R192: the outputs in a cycle with `rst` = 0 that starts from the reset values. -/
def Obligations.PortsAfterReset : Prop :=
  ∀ (s : State) (p : Inputs), p.rst = false →
    (outputs p (resetBlock s)).cmdReady = true ∧ (outputs p (resetBlock s)).rxReady = true
      ∧ (outputs p (resetBlock s)).txValid = false ∧ (outputs p (resetBlock s)).outValid = false
      ∧ (outputs p (resetBlock s)).status = 0x00000000#32

/-- R37 to R41: the ports' valid, ready and data signals, with `rst` = 0 and with `rst` = 1. -/
def Obligations.PortsFollowTheState : Prop :=
  ∀ (s : State) (p : Inputs),
    (p.rst = false →
      ((outputs p s).cmdReady = true ↔ ¬ (isTX p.cmdWord = true ∧ s.txPend ≠ []))
      ∧ ((outputs p s).txValid = true ↔ s.txPend ≠ []) ∧ ((outputs p s).rxReady = true ↔ s.rxOut = [])
      ∧ ((outputs p s).outValid = true ↔ s.rxOut ≠ [])
      ∧ ((outputs p s).txLast = true ↔ s.txPendEnd = true ∧ s.txPend.length = 1)
      ∧ (∀ b bs, s.txPend = b :: bs → (outputs p s).txBit = b) ∧ (s.txPend = [] → (outputs p s).txBit = false)
      ∧ (∀ i is, s.rxOut = i :: is → (outputs p s).outByte = i.byte ∧ (outputs p s).outField = i.field.code
          ∧ (outputs p s).outFlast = i.flast ∧ (outputs p s).outLast = i.last)
      ∧ (s.rxOut = [] → (outputs p s).outByte = 0x00#8 ∧ (outputs p s).outField = 0#2
          ∧ (outputs p s).outFlast = false ∧ (outputs p s).outLast = false))
    ∧ (p.rst = true →
      (outputs p s).cmdReady = false ∧ (outputs p s).txValid = false ∧ (outputs p s).rxReady = false
      ∧ (outputs p s).outValid = false ∧ edgeTransfers p s = [.reset])

/-- R33: every field of STATUS, at its bits, with its encoding; STATUS is driven whatever the inputs are. -/
def Obligations.StatusLayout : Prop :=
  ∀ (s : State) (p : Inputs),
    (outputs p s).status = status s
      ∧ ((status s).extractLsb' 0 1 = 1#1 ↔ s.txPend ≠ [])
      ∧ (status s).extractLsb' 1 2 = (match s.txField with | .idle => 0#2 | .country => 1#2 | .text => 2#2)
      ∧ ((status s).extractLsb' 3 1 = 1#1 ↔ s.cmdErr = true)
      ∧ (status s).extractLsb' 4 2 = (match s.cmdCause with | .none => 0#2 | .illegal => 1#2 | .sequence => 2#2)
      ∧ ((status s).extractLsb' 6 1 = 1#1 ↔ s.rxOut ≠ [])
      ∧ ((status s).extractLsb' 7 1 = 1#1 ↔ s.rxBits ≠ [] ∨ s.rxOvf = true)
      ∧ (status s).extractLsb' 8 3
          = (match s.rxResult with | .none => 0#3 | .ok => 1#3 | .short => 2#3 | .partialUnit => 3#3 | .overflow => 4#3)
      ∧ ((status s).extractLsb' 11 1 = 1#1 ↔ s.rxOvf = true)
      ∧ (status s).extractLsb' 12 4 = 0#4 ∧ (status s).extractLsb' 16 16 = s.errWord

/-- R127: a TX line transfer delivers the head of `tx_pend` with `tx_last` = 1 only on the last END bit, and
removes it; whatever else happens at that edge. -/
def Obligations.TxLineDeliversTheHead : Prop :=
  ∀ (s : State) (p : Inputs) (rest : List Inputs) (b : Bit) (bs : List Bit), s.edges = p :: rest →
    p.rst = false → p.txReady = true → s.txPend = b :: bs →
    ∃ t, step s = .next t ∧ t.txPend = bs ∧ t.txPendEnd = (s.txPendEnd && !bs.isEmpty)
      ∧ txBeatsOf t.trace = txBeatsOf s.trace ++ [(b, s.txPendEnd && bs.isEmpty)]

/-- R140, R145: an RX line transfer keeps its bit while room remains and drops it otherwise, and with
`rx_last` = 1 ends the unit; whatever else happens at that edge. -/
def Obligations.RxLineKeepsOrEndsTheUnit : Prop :=
  ∀ (s : State) (p : Inputs) (rest : List Inputs), s.edges = p :: rest → p.rst = false → p.rxValid = true →
    s.rxOut = [] →
    ∃ t, step s = .next t
      ∧ (s.rxBits.length < 8 * s.cfg.nRxBuf → p.rxLast = false →
          t.rxBits = s.rxBits ++ [p.rxBit] ∧ t.rxOvf = s.rxOvf ∧ t.rxOut = [])
      ∧ (8 * s.cfg.nRxBuf ≤ s.rxBits.length → p.rxLast = false →
          t.rxBits = s.rxBits ∧ t.rxOvf = true ∧ t.rxOut = [])
      ∧ (s.rxBits.length < 8 * s.cfg.nRxBuf → p.rxLast = true →
          (t.rxResult, t.rxOut) = unitDecode s.cfg (s.rxBits ++ [p.rxBit]) s.rxOvf)
      ∧ (8 * s.cfg.nRxBuf ≤ s.rxBits.length → p.rxLast = true →
          (t.rxResult, t.rxOut) = unitDecode s.cfg s.rxBits true)
      ∧ (p.rxLast = true → t.rxBits = [] ∧ t.rxOvf = false)
      ∧ (p.rxLast = false → p.cmdValid = false → t.rxResult = s.rxResult)

/-- R150: an output transfer delivers the head of `rx_out` and removes it; `RX_BUSY` falls at the item with
`last` = 1. -/
def Obligations.OutputDeliversTheHead : Prop :=
  ∀ (s : State) (p : Inputs) (rest : List Inputs) (i : Item) (is : List Item), s.edges = p :: rest →
    p.rst = false → p.outReady = true → s.rxOut = i :: is →
    ∃ t, step s = .next t ∧ t.rxOut = is ∧ itemsTaken t.trace = itemsTaken s.trace ++ [i]
      ∧ (ItemsClosed s → (rxBusy t = false ↔ i.last = true))

/-- R16, R182: every transfer of a line or output port completes, is noted, and leaves unchanged what is not its
own: the constants and the scheduled edges; the TX state but for the pending bits of a TX line transfer; the RX
state but for an RX line or output transfer; `rx_result` but for a bit that ends a unit; the error fields. -/
def Obligations.LineAndOutputTransfersFrame : Prop :=
  ∀ (x : Transfer) (s : State), x ≠ .reset → (∀ w, x ≠ .command w) →
    ∃ t, x.fire s = .next t ∧ t.trace = s.trace ++ [x] ∧ t.cfg = s.cfg ∧ t.edges = s.edges
      ∧ t.txField = s.txField ∧ t.cmdErr = s.cmdErr ∧ t.cmdCause = s.cmdCause ∧ t.errWord = s.errWord
      ∧ ((∀ b l, x ≠ .txLine b l) → t.txPend = s.txPend ∧ t.txPendEnd = s.txPendEnd)
      ∧ ((∀ b l, x ≠ .rxLine b l) → t.rxBits = s.rxBits ∧ t.rxOvf = s.rxOvf)
      ∧ ((∀ b l, x ≠ .rxLine b l) → (∀ i, x ≠ .output i) → t.rxOut = s.rxOut)
      ∧ ((∀ b, x ≠ .rxLine b true) → t.rxResult = s.rxResult)

/-- R42: at one edge a TX-class word and a TX line transfer never meet, nor do an RX line and an output transfer;
and when `CLRSTAT` meets the end of a unit, the unit's result survives the clear. -/
def Obligations.SameEdgeTransfers : Prop :=
  ∀ (s : State) (p : Inputs), p.rst = false →
    (isTX p.cmdWord = true → commandTransfer p s = [] ∨ txTransfer p s = [])
      ∧ (rxTransfer p s = [] ∨ outTransfer p s = [])
      ∧ (p.cmdValid = true → p.cmdWord = 0x5000#16 → p.rxValid = true → p.rxLast = true → s.rxOut = [] →
          ∃ t, clockEdge p s = .next t
            ∧ t.rxResult = (unitDecode s.cfg (Memory.write s.cfg s.rxBits p.rxBit).1
                (s.rxOvf || (Memory.write s.cfg s.rxBits p.rxBit).2)).1
            ∧ t.cmdErr = false ∧ t.cmdCause = .none ∧ t.errWord = 0x0000#16)

/-- R42, R43: every edge without reset equals its transfers one at a time in the order command, TX line, RX line,
output, each still enabled; an edge with reset is reset alone; and every enabled transfer alone is what some edge
does. -/
def Obligations.InterleavingEqualsTheEdge : Prop :=
  (∀ (p : Inputs) (s : State), p.rst = false →
      clockEdge p s = fireAll (commandTransfer p s ++ txTransfer p s ++ rxTransfer p s ++ outTransfer p s) s
        ∧ EnabledInTurn (commandTransfer p s ++ txTransfer p s ++ rxTransfer p s ++ outTransfer p s) s)
    ∧ (∀ (p : Inputs) (s : State), p.rst = true → clockEdge p s = fireAll [.reset] s ∧ EnabledInTurn [.reset] s)
    ∧ ∀ (t : Transfer) (s : State), t.enabled s = true → ∃ p : Inputs, clockEdge p s = t.fire s

/-! ## Whole-machine rules -/

/-- R45 at reset. -/
def Obligations.ResetMeetsTheInvariant : Prop := Inv State.reset ∧ ItemsClosed State.reset

/-- R45: every step keeps the invariant. -/
def Obligations.EveryStepKeepsTheInvariant : Prop :=
  ∀ s t : State, Inv s → step s = .next t → Inv t

/-- R151: every step keeps the undelivered items closed by their one `last`. -/
def Obligations.EveryStepKeepsItemsClosed : Prop :=
  ∀ s t : State, ItemsClosed s → step s = .next t → ItemsClosed t

/-- R49: no step changes the constants of the built block. -/
def Obligations.NoStepChangesTheConstants : Prop :=
  ∀ s t : State, step s = .next t → t.cfg = s.cfg ∧ ∀ a, romRead t.cfg a = romRead s.cfg a

/-- R174: a recorded command error stays, with its cause and word, until `CLRSTAT` or reset. -/
def Obligations.CommandErrorsAreSticky : Prop :=
  ∀ s t : State, s.cmdErr = true → step s = .next t →
    (∀ p ∈ s.edges.head?, p.rst = false ∧ ¬ (p.cmdValid = true ∧ p.cmdWord = 0x5000#16)) →
    t.cmdErr = true ∧ t.cmdCause = s.cmdCause ∧ t.errWord = s.errWord

/-- R23, R130: the field pointer moves only by `TXBEGIN`, `TXSEP`, `TXEND`, each from its own field to the next,
and by reset; so an open frame is left only by `TXSEP` and `TXEND` or by reset. -/
def Obligations.FieldPointerMovesInOrder : Prop :=
  ∀ s t : State, step s = .next t → t.txField ≠ s.txField →
    ∃ p ∈ s.edges.head?, (p.rst = true ∧ t.txField = .idle)
      ∨ (p.cmdValid = true ∧
          ((p.cmdWord = 0x1000#16 ∧ s.txField = .idle ∧ t.txField = .country)
            ∨ (p.cmdWord = 0x3000#16 ∧ s.txField = .country ∧ t.txField = .text)
            ∨ (p.cmdWord = 0x4000#16 ∧ s.txField = .text ∧ t.txField = .idle)))

/-- R197: while the TX sink takes nothing, pending bits stay and no TX-class word is accepted, for ever. -/
def Obligations.TxHang : Prop :=
  ∀ (k : Nat) (s t : State), s.txPend ≠ [] → (∀ p ∈ s.edges.take k, p.rst = false ∧ p.txReady = false) →
    runSteps k s = .next t →
    t.txPend = s.txPend ∧ t.txPendEnd = s.txPendEnd ∧ t.txField = s.txField
      ∧ ∃ ts, t.trace = s.trace ++ ts ∧ ∀ w ∈ commandsOf ts, isTX w = false

/-- R198, R152: while the output sink takes nothing, undelivered items stay and the RX line accepts no bit. -/
def Obligations.RxHold : Prop :=
  ∀ (k : Nat) (s t : State), s.rxOut ≠ [] → (∀ p ∈ s.edges.take k, p.rst = false ∧ p.outReady = false) →
    runSteps k s = .next t →
    t.rxOut = s.rxOut ∧ t.rxBits = s.rxBits ∧ ∃ ts, t.trace = s.trace ++ ts ∧ rxBeatsOf ts = []

/-- R15, R65: what the TX path does depends on nothing of the RX path: two states that agree on the constants and
the TX state, at edges that agree on reset, the command port and the TX line, make the same TX-line and command
transfers and agree again. -/
def Obligations.TxPathIgnoresTheRxPath : Prop :=
  ∀ (s₁ s₂ t₁ t₂ : State) (p₁ p₂ : Inputs), s₁.cfg = s₂.cfg → s₁.txField = s₂.txField → s₁.txPend = s₂.txPend →
    s₁.txPendEnd = s₂.txPendEnd → p₁.rst = p₂.rst → p₁.cmdValid = p₂.cmdValid → p₁.cmdWord = p₂.cmdWord →
    p₁.txReady = p₂.txReady → clockEdge p₁ s₁ = .next t₁ → clockEdge p₂ s₂ = .next t₂ →
    t₁.txField = t₂.txField ∧ t₁.txPend = t₂.txPend ∧ t₁.txPendEnd = t₂.txPendEnd
      ∧ commandTransfer p₁ s₁ = commandTransfer p₂ s₂ ∧ txTransfer p₁ s₁ = txTransfer p₂ s₂

/-- R15, R65: what the RX path does depends on nothing of the TX path or the command port, but for `rx_result`,
which `CLRSTAT` clears. -/
def Obligations.RxPathIgnoresTheTxPath : Prop :=
  ∀ (s₁ s₂ t₁ t₂ : State) (p₁ p₂ : Inputs), s₁.cfg = s₂.cfg → s₁.rxBits = s₂.rxBits → s₁.rxOvf = s₂.rxOvf →
    s₁.rxOut = s₂.rxOut → p₁.rst = p₂.rst → p₁.rxValid = p₂.rxValid → p₁.rxBit = p₂.rxBit →
    p₁.rxLast = p₂.rxLast → p₁.outReady = p₂.outReady → clockEdge p₁ s₁ = .next t₁ → clockEdge p₂ s₂ = .next t₂ →
    t₁.rxBits = t₂.rxBits ∧ t₁.rxOvf = t₂.rxOvf ∧ t₁.rxOut = t₂.rxOut
      ∧ rxTransfer p₁ s₁ = rxTransfer p₂ s₂ ∧ outTransfer p₁ s₁ = outTransfer p₂ s₂

/-! ## The codec's functions -/

/-- R102: expander and packer are inverse, on bytes, on eight bits and on byte strings. -/
def Obligations.ExpanderAndPackerAreInverse : Prop :=
  (∀ c : Byte, pack8 (bits8 c) = c) ∧ (∀ b : List Bit, b.length = 8 → bits8 (pack8 b) = b)
    ∧ ∀ s : List Byte, groups8 (expand s) = s

/-- R141: bit `i` of a unit of whole bytes is bit `7 - (i mod 8)` of its byte `i div 8`. -/
def Obligations.BitPositionInAUnit : Prop :=
  ∀ (bits : List Bit) (i : Nat), bits.length % 8 = 0 → i < bits.length →
    ∃ b, (groups8 bits)[i / 8]? = some b ∧ bits[i]? = some (b.getLsbD (7 - i % 8))

/-- R51: the ROM's layout. -/
def Obligations.RomLayout : Prop :=
  ∀ (c : Config) (a : Nat),
    (a < c.lS → romRead c a = c.startStr[a]?)
      ∧ (c.lS ≤ a → a < c.lS + c.lC → romRead c a = c.creatorStr[a - c.lS]?)
      ∧ (c.lS + c.lC ≤ a → a < c.lOvh → romRead c a = c.endStr[a - (c.lS + c.lC)]?)
      ∧ ((∃ b, romRead c a = some b) ↔ a < c.lOvh)

/-- R71, R104: the fields of a frame, at their bit offsets, and its length: a whole number of bytes, at least the
overhead and the separator; and the order of the bits in a character's group. -/
def Obligations.FrameLayout : Prop :=
  ∀ (c : Config) (country text : List Byte),
    let f := encodeFrame c country text
    let pay := 8 * (c.lS + c.lC)
    let sepAt := 8 * (c.lS + c.lC + country.length)
    let endAt := 8 * (c.lS + c.lC + country.length + 1 + text.length)
    slice f 0 (8 * c.lS) = expand c.startStr ∧ slice f (8 * c.lS) pay = expand c.creatorStr
      ∧ slice f pay sepAt = expand country ∧ slice f sepAt (sepAt + 8) = bits8 0x2C#8
      ∧ slice f (sepAt + 8) endAt = expand text ∧ slice f endAt (endAt + 8 * c.lE) = expand c.endStr
      ∧ f.length = endAt + 8 * c.lE ∧ 8 * (c.lOvh + 1) ≤ f.length
      ∧ ∀ (x : Byte) (i : Nat), i < 8 → (bits8 x)[i]? = some (x.getLsbD (7 - i))

/-- R56: the wire bytes of a frame are its character codes, and expanding them gives the frame. -/
def Obligations.WireBytesOfAFrame : Prop :=
  ∀ (c : Config) (country text : List Byte),
    wireBytes (encodeFrame c country text)
        = c.startStr ++ c.creatorStr ++ country ++ [0x2C#8] ++ text ++ c.endStr
      ∧ expand (wireBytes (encodeFrame c country text)) = encodeFrame c country text

/-- R110, R111: decoding an encoded frame gives the fields back, for every byte value; with empty fields the
payload is the one separator. -/
def Obligations.DecodeOfEncode : Prop :=
  ∀ (c : Config) (country text : List Byte),
    decodeFrame c (encodeFrame c country text)
        = some { start := c.startStr, creator := c.creatorStr, payload := country ++ [0x2C#8] ++ text,
                 ending := c.endStr }

/-- R112: two frames in one unit decode with everything between the first creator tag and the last END marker in
the payload. -/
def Obligations.CoalescedFramesDecode : Prop :=
  ∀ (c : Config) (c1 t1 c2 t2 : List Byte),
    decodeFrame c (encodeFrame c c1 t1 ++ encodeFrame c c2 t2)
      = some { start := c.startStr, creator := c.creatorStr,
               payload := c1 ++ [0x2C#8] ++ t1 ++ c.endStr ++ c.startStr ++ c.creatorStr ++ c2 ++ [0x2C#8] ++ t2,
               ending := c.endStr }

/-- R108, R106, R151: the items' bytes by field are Decode's four results, their bytes in order are the unit's,
`flast` marks exactly the last item of each field, and exactly the last item, an END item, is marked `last`. -/
def Obligations.ItemsAreTheDecodedFields : Prop :=
  ∀ (c : Config) (bits : List Bit) (d : Fields), decodeFrame c bits = some d →
    fieldBytes .start (itemsOf c bits) = d.start ∧ fieldBytes .creator (itemsOf c bits) = d.creator
      ∧ fieldBytes .payload (itemsOf c bits) = d.payload ∧ fieldBytes .endMarker (itemsOf c bits) = d.ending
      ∧ (itemsOf c bits).map Item.byte = groups8 bits
      ∧ ∀ (k : Nat) (i : Item), (itemsOf c bits)[k]? = some i →
          (i.last = true ↔ k + 1 = (itemsOf c bits).length) ∧ (i.last = true → i.field = .endMarker ∧ i.flast = true)
            ∧ (i.flast = true ↔ k + 1 = (itemsOf c bits).length
                ∨ ∃ j : Item, (itemsOf c bits)[k + 1]? = some j ∧ j.field ≠ i.field)

/-- R144, R146, R180: the outcome of a unit of `n` kept bits. -/
def Obligations.UnitOutcomes : Prop :=
  ∀ (c : Config) (bits : List Bit) (ovf : Bool),
    (ovf = true → unitDecode c bits ovf = (.overflow, []))
      ∧ (ovf = false → bits.length % 8 ≠ 0 → unitDecode c bits ovf = (.partialUnit, []))
      ∧ (ovf = false → bits.length % 8 = 0 → bits.length < 8 * c.lOvh → unitDecode c bits ovf = (.short, []))
      ∧ (ovf = false → bits.length % 8 = 0 → 8 * c.lOvh ≤ bits.length →
          unitDecode c bits ovf = (.ok, itemsOf c bits) ∧ (itemsOf c bits).length = bits.length / 8
            ∧ (bits.length = 8 * c.lOvh → fieldBytes .payload (itemsOf c bits) = []))

/-! ## Runs -/

/-- The TX line carries exactly what the performed commands queue: over any run without reset, whatever the other
ports do, the bits delivered and those still pending are the ones pending before and those queued since, in
order, each once, with `tx_last` on the last END bit only; and the field pointer is the table's. -/
def Obligations.TxLineCarriesWhatCommandsQueue : Prop :=
  ∀ (k : Nat) (s t : State), noReset k s = true → runSteps k s = .next t →
    ∃ ts, t.trace = s.trace ++ ts
      ∧ txBeatsOf ts ++ pendingBeats t
          = pendingBeats s ++ (performedFrom s.txField (commandsOf ts)).flatMap (lineOf s.cfg)
      ∧ t.txField = fieldAfter s.txField (commandsOf ts)

/-- R128, R129: the TX path computes Encode. From a state with no frame open and nothing pending, in any run
without reset whose performed commands are those of `TXFRAME country, text`, with any other and any rejected words
between them, once a bit with `tx_last` = 1 has left the line has carried exactly `Encode(country, text)`, with
`tx_last` = 1 on its last bit only, and the TX path is idle again. -/
def Obligations.TxPathComputesEncode : Prop :=
  ∀ (k : Nat) (s t : State) (ts : List Transfer) (country text : List Byte),
    s.txField = .idle → s.txPend = [] → noReset k s = true → runSteps k s = .next t → t.trace = s.trace ++ ts →
    performedFrom .idle (commandsOf ts) = txframe country text → (∃ b, (b, true) ∈ txBeatsOf ts) →
    txBeatsOf ts = beats true (encodeFrame s.cfg country text) ∧ t.txField = .idle ∧ t.txPend = []

/-- A frame is sent: when the host offers the words of `TXFRAME` and the TX sink takes every bit before the next
offer, the run goes through, carries `Encode(country, text)`, and raises no command error (R88, R128, R202). -/
def Obligations.FrameScheduleSendsTheFrame : Prop :=
  ∀ (s : State) (country text : List Byte) (rest : List Inputs), s.txField = .idle → s.txPend = [] →
    s.edges = frameSchedule s.cfg country text ++ rest →
    ∃ t, runSteps (frameSchedule s.cfg country text).length s = .next t
      ∧ txBeatsOf t.trace = txBeatsOf s.trace ++ beats true (encodeFrame s.cfg country text)
      ∧ t.txField = .idle ∧ t.txPend = [] ∧ t.edges = rest
      ∧ t.cmdErr = s.cmdErr ∧ t.cmdCause = s.cmdCause ∧ t.errWord = s.errWord

/-- The RX path delivers exactly what the received units decode to: over any run without reset that begins
between two units, the items taken and those still pending are the ones pending before and those of the units
completed since, in order. -/
def Obligations.RxPathDeliversTheUnits : Prop :=
  ∀ (k : Nat) (s t : State), s.rxBits = [] → s.rxOvf = false → noReset k s = true → runSteps k s = .next t →
    ∃ ts, t.trace = s.trace ++ ts
      ∧ itemsTaken ts ++ t.rxOut
          = s.rxOut ++ (unitsFrom [] (rxBeatsOf ts)).flatMap fun u => (unitOutcome s.cfg u).2

/-- R154: the RX path computes Decode. From a state with no unit open and no item pending, in any run without
reset that accepts `Encode(country, text)` as one unit and no other bit, if the frame fits the buffer the items
taken and pending are START, CREATOR, payload and END, and if it does not there are none; and unless `CLRSTAT`
comes after the unit's end, the result is OK, respectively OVERFLOW. -/
def Obligations.RxPathComputesDecode : Prop :=
  ∀ (k : Nat) (s t : State) (ts : List Transfer) (country text : List Byte),
    s.rxBits = [] → s.rxOvf = false → s.rxOut = [] → noReset k s = true → runSteps k s = .next t →
    t.trace = s.trace ++ ts → rxBeatsOf ts = beats true (encodeFrame s.cfg country text) →
    (s.cfg.lOvh + country.length + 1 + text.length ≤ s.cfg.nRxBuf →
      fieldBytes .start (itemsTaken ts ++ t.rxOut) = s.cfg.startStr
        ∧ fieldBytes .creator (itemsTaken ts ++ t.rxOut) = s.cfg.creatorStr
        ∧ fieldBytes .payload (itemsTaken ts ++ t.rxOut) = country ++ [0x2C#8] ++ text
        ∧ fieldBytes .endMarker (itemsTaken ts ++ t.rxOut) = s.cfg.endStr)
    ∧ (s.cfg.nRxBuf < s.cfg.lOvh + country.length + 1 + text.length → itemsTaken ts ++ t.rxOut = [])
    ∧ ∀ (ts₁ ts₂ : List Transfer) (b : Bit), ts = ts₁ ++ .rxLine b true :: ts₂ → 0x5000#16 ∉ commandsOf ts₂ →
        t.rxResult = if s.cfg.lOvh + country.length + 1 + text.length ≤ s.cfg.nRxBuf then .ok else .overflow

/-- A unit is received: when the RX source offers the bits of a unit one edge after another, from a state between
two units with no item pending, the run goes through and leaves the unit's outcome (R140, R143, R145, R146). -/
def Obligations.UnitScheduleIsDecoded : Prop :=
  ∀ (s : State) (u : List Bit) (rest : List Inputs), u ≠ [] → s.rxBits = [] → s.rxOvf = false → s.rxOut = [] →
    s.edges = (beats true u).map rxInputs ++ rest →
    ∃ t, runSteps u.length s = .next t ∧ (t.rxResult, t.rxOut) = unitOutcome s.cfg u
      ∧ t.rxBits = [] ∧ t.rxOvf = false ∧ t.edges = rest

/-- R155: loop-back. Two blocks built with the same parameters, joined by a line (or one block joined to itself:
`a = b`), the first sending one frame as in R128: the second receives it as one unit, and if it fits the buffer,
its items are the frame's fields. -/
def Obligations.LoopBackDeliversTheFrame : Prop :=
  ∀ (k : Nat) (a b a' b' : State) (tsA tsB : List Transfer) (country text : List Byte),
    a.cfg = b.cfg → a.txField = .idle → a.txPend = [] → b.rxBits = [] → b.rxOvf = false → b.rxOut = [] →
    joinedFor k a b = true → runSteps k a = .next a' → runSteps k b = .next b' →
    a'.trace = a.trace ++ tsA → b'.trace = b.trace ++ tsB →
    performedFrom .idle (commandsOf tsA) = txframe country text → (∃ x, (x, true) ∈ txBeatsOf tsA) →
    rxBeatsOf tsB = beats true (encodeFrame a.cfg country text)
      ∧ (a.cfg.lOvh + country.length + 1 + text.length ≤ a.cfg.nRxBuf →
          fieldBytes .start (itemsTaken tsB ++ b'.rxOut) = a.cfg.startStr
            ∧ fieldBytes .creator (itemsTaken tsB ++ b'.rxOut) = a.cfg.creatorStr
            ∧ fieldBytes .payload (itemsTaken tsB ++ b'.rxOut) = country ++ [0x2C#8] ++ text
            ∧ fieldBytes .endMarker (itemsTaken tsB ++ b'.rxOut) = a.cfg.endStr)

/-! ## The reference microarchitecture -/

/-- R48: the shift-register serializer realises `tx_pend`: taking the next ROM byte does not change it, a load
into an empty serializer makes it the loaded bits, and while bits are left in the shift register its top bit is
the head and shifting removes it. (That a byte load leaves the ROM pointer and limit as they are is the model's
inference, assumption log 10.) -/
def Obligations.ShiftRegisterRealisesTxPend : Prop :=
  ∀ (c : Config) (m : TxMicro), m.shn ≤ 8 → m.rl ≤ c.lOvh →
    (m.reload c).pending c = m.pending c
      ∧ (m.pending c ≠ [] → 0 < (m.reload c).shn)
      ∧ (m.pending c = [] → ∀ lo hi, (m.loadRom lo hi).pending c = expand (romRange c lo hi))
      ∧ (m.pending c = [] → ∀ b, (m.loadByte b).pending c = bits8 b)
      ∧ (0 < m.shn → (m.pending c).head? = some (m.sh.getLsbD 7) ∧ m.shift.pending c = (m.pending c).tail)

/-- R48: the receive side. Keeping a bit in the accumulator and byte buffer appends it to `rx_bits`; with whole
bytes kept, the read pointer's items are those of the kept bits, and advancing it removes the head. -/
def Obligations.BufferRealisesTheRxState : Prop :=
  (∀ (m : RxMicro) (b : Bit), m.na ≤ 7 → m.nb < m.buf.length → (m.keep b).kept = m.kept ++ [b])
    ∧ ∀ (c : Config) (m : RxMicro) (rd : Nat), m.na = 0 → m.nb ≤ m.buf.length →
        m.itemsFrom c 0 = itemsOf c m.kept ∧ m.itemsFrom c (rd + 1) = (m.itemsFrom c rd).tail
end

