-- ==== Sys2Proof/Laws/State.lean ====
section
/-! SUPPORT. One lemma per field per named update of the state, so that no later proof unfolds an update. -/

namespace Sys2Proof.Machine

/-! ### `record` -/

@[simp] theorem record_cfg (t : Transfer) (s : State) :
    (record t s).cfg = s.cfg := rfl
@[simp] theorem record_txField (t : Transfer) (s : State) :
    (record t s).txField = s.txField := rfl
@[simp] theorem record_txPend (t : Transfer) (s : State) :
    (record t s).txPend = s.txPend := rfl
@[simp] theorem record_txPendEnd (t : Transfer) (s : State) :
    (record t s).txPendEnd = s.txPendEnd := rfl
@[simp] theorem record_rxBits (t : Transfer) (s : State) :
    (record t s).rxBits = s.rxBits := rfl
@[simp] theorem record_rxOvf (t : Transfer) (s : State) :
    (record t s).rxOvf = s.rxOvf := rfl
@[simp] theorem record_rxOut (t : Transfer) (s : State) :
    (record t s).rxOut = s.rxOut := rfl
@[simp] theorem record_rxResult (t : Transfer) (s : State) :
    (record t s).rxResult = s.rxResult := rfl
@[simp] theorem record_cmdErr (t : Transfer) (s : State) :
    (record t s).cmdErr = s.cmdErr := rfl
@[simp] theorem record_cmdCause (t : Transfer) (s : State) :
    (record t s).cmdCause = s.cmdCause := rfl
@[simp] theorem record_errWord (t : Transfer) (s : State) :
    (record t s).errWord = s.errWord := rfl
@[simp] theorem record_edges (t : Transfer) (s : State) :
    (record t s).edges = s.edges := rfl
@[simp] theorem record_trace (t : Transfer) (s : State) :
    (record t s).trace = s.trace ++ [t] := rfl

/-! ### `resetBlock` -/

@[simp] theorem resetBlock_cfg (s : State) :
    (resetBlock s).cfg = s.cfg := rfl
@[simp] theorem resetBlock_txField (s : State) :
    (resetBlock s).txField = .idle := rfl
@[simp] theorem resetBlock_txPend (s : State) :
    (resetBlock s).txPend = [] := rfl
@[simp] theorem resetBlock_txPendEnd (s : State) :
    (resetBlock s).txPendEnd = false := rfl
@[simp] theorem resetBlock_rxBits (s : State) :
    (resetBlock s).rxBits = [] := rfl
@[simp] theorem resetBlock_rxOvf (s : State) :
    (resetBlock s).rxOvf = false := rfl
@[simp] theorem resetBlock_rxOut (s : State) :
    (resetBlock s).rxOut = [] := rfl
@[simp] theorem resetBlock_rxResult (s : State) :
    (resetBlock s).rxResult = .none := rfl
@[simp] theorem resetBlock_cmdErr (s : State) :
    (resetBlock s).cmdErr = false := rfl
@[simp] theorem resetBlock_cmdCause (s : State) :
    (resetBlock s).cmdCause = .none := rfl
@[simp] theorem resetBlock_errWord (s : State) :
    (resetBlock s).errWord = 0x0000#16 := rfl
@[simp] theorem resetBlock_edges (s : State) :
    (resetBlock s).edges = s.edges := rfl
@[simp] theorem resetBlock_trace (s : State) :
    (resetBlock s).trace = s.trace := rfl

/-! ### `queueTx` -/

@[simp] theorem queueTx_cfg (f : TxField) (bs : List Byte) (e : Bool) (s : State) :
    (queueTx f bs e s).cfg = s.cfg := rfl
@[simp] theorem queueTx_txField (f : TxField) (bs : List Byte) (e : Bool) (s : State) :
    (queueTx f bs e s).txField = f := rfl
@[simp] theorem queueTx_txPend (f : TxField) (bs : List Byte) (e : Bool) (s : State) :
    (queueTx f bs e s).txPend = expand bs := rfl
@[simp] theorem queueTx_txPendEnd (f : TxField) (bs : List Byte) (e : Bool) (s : State) :
    (queueTx f bs e s).txPendEnd = e := rfl
@[simp] theorem queueTx_rxBits (f : TxField) (bs : List Byte) (e : Bool) (s : State) :
    (queueTx f bs e s).rxBits = s.rxBits := rfl
@[simp] theorem queueTx_rxOvf (f : TxField) (bs : List Byte) (e : Bool) (s : State) :
    (queueTx f bs e s).rxOvf = s.rxOvf := rfl
@[simp] theorem queueTx_rxOut (f : TxField) (bs : List Byte) (e : Bool) (s : State) :
    (queueTx f bs e s).rxOut = s.rxOut := rfl
@[simp] theorem queueTx_rxResult (f : TxField) (bs : List Byte) (e : Bool) (s : State) :
    (queueTx f bs e s).rxResult = s.rxResult := rfl
@[simp] theorem queueTx_cmdErr (f : TxField) (bs : List Byte) (e : Bool) (s : State) :
    (queueTx f bs e s).cmdErr = s.cmdErr := rfl
@[simp] theorem queueTx_cmdCause (f : TxField) (bs : List Byte) (e : Bool) (s : State) :
    (queueTx f bs e s).cmdCause = s.cmdCause := rfl
@[simp] theorem queueTx_errWord (f : TxField) (bs : List Byte) (e : Bool) (s : State) :
    (queueTx f bs e s).errWord = s.errWord := rfl
@[simp] theorem queueTx_edges (f : TxField) (bs : List Byte) (e : Bool) (s : State) :
    (queueTx f bs e s).edges = s.edges := rfl
@[simp] theorem queueTx_trace (f : TxField) (bs : List Byte) (e : Bool) (s : State) :
    (queueTx f bs e s).trace = s.trace := rfl

/-! ### `raiseCmdError` -/

@[simp] theorem raiseCmdError_cfg (c : CmdCause) (w : Word) (s : State) :
    (raiseCmdError c w s).cfg = s.cfg := by unfold raiseCmdError; split <;> simp_all
@[simp] theorem raiseCmdError_txField (c : CmdCause) (w : Word) (s : State) :
    (raiseCmdError c w s).txField = s.txField := by unfold raiseCmdError; split <;> simp_all
@[simp] theorem raiseCmdError_txPend (c : CmdCause) (w : Word) (s : State) :
    (raiseCmdError c w s).txPend = s.txPend := by unfold raiseCmdError; split <;> simp_all
@[simp] theorem raiseCmdError_txPendEnd (c : CmdCause) (w : Word) (s : State) :
    (raiseCmdError c w s).txPendEnd = s.txPendEnd := by unfold raiseCmdError; split <;> simp_all
@[simp] theorem raiseCmdError_rxBits (c : CmdCause) (w : Word) (s : State) :
    (raiseCmdError c w s).rxBits = s.rxBits := by unfold raiseCmdError; split <;> simp_all
@[simp] theorem raiseCmdError_rxOvf (c : CmdCause) (w : Word) (s : State) :
    (raiseCmdError c w s).rxOvf = s.rxOvf := by unfold raiseCmdError; split <;> simp_all
@[simp] theorem raiseCmdError_rxOut (c : CmdCause) (w : Word) (s : State) :
    (raiseCmdError c w s).rxOut = s.rxOut := by unfold raiseCmdError; split <;> simp_all
@[simp] theorem raiseCmdError_rxResult (c : CmdCause) (w : Word) (s : State) :
    (raiseCmdError c w s).rxResult = s.rxResult := by unfold raiseCmdError; split <;> simp_all
@[simp] theorem raiseCmdError_cmdErr (c : CmdCause) (w : Word) (s : State) :
    (raiseCmdError c w s).cmdErr = true := by unfold raiseCmdError; split <;> simp_all
@[simp] theorem raiseCmdError_cmdCause (c : CmdCause) (w : Word) (s : State) :
    (raiseCmdError c w s).cmdCause = (if s.cmdErr then s.cmdCause else c) := by unfold raiseCmdError; split <;> simp_all
@[simp] theorem raiseCmdError_errWord (c : CmdCause) (w : Word) (s : State) :
    (raiseCmdError c w s).errWord = (if s.cmdErr then s.errWord else w) := by unfold raiseCmdError; split <;> simp_all
@[simp] theorem raiseCmdError_edges (c : CmdCause) (w : Word) (s : State) :
    (raiseCmdError c w s).edges = s.edges := by unfold raiseCmdError; split <;> simp_all
@[simp] theorem raiseCmdError_trace (c : CmdCause) (w : Word) (s : State) :
    (raiseCmdError c w s).trace = s.trace := by unfold raiseCmdError; split <;> simp_all

/-! ### `txLineTransfer` -/

@[simp] theorem txLineTransfer_cfg (s : State) :
    (txLineTransfer s).cfg = s.cfg := rfl
@[simp] theorem txLineTransfer_txField (s : State) :
    (txLineTransfer s).txField = s.txField := rfl
@[simp] theorem txLineTransfer_txPend (s : State) :
    (txLineTransfer s).txPend = s.txPend.tail := rfl
@[simp] theorem txLineTransfer_txPendEnd (s : State) :
    (txLineTransfer s).txPendEnd = (if s.txPend.length = 1 then false else s.txPendEnd) := rfl
@[simp] theorem txLineTransfer_rxBits (s : State) :
    (txLineTransfer s).rxBits = s.rxBits := rfl
@[simp] theorem txLineTransfer_rxOvf (s : State) :
    (txLineTransfer s).rxOvf = s.rxOvf := rfl
@[simp] theorem txLineTransfer_rxOut (s : State) :
    (txLineTransfer s).rxOut = s.rxOut := rfl
@[simp] theorem txLineTransfer_rxResult (s : State) :
    (txLineTransfer s).rxResult = s.rxResult := rfl
@[simp] theorem txLineTransfer_cmdErr (s : State) :
    (txLineTransfer s).cmdErr = s.cmdErr := rfl
@[simp] theorem txLineTransfer_cmdCause (s : State) :
    (txLineTransfer s).cmdCause = s.cmdCause := rfl
@[simp] theorem txLineTransfer_errWord (s : State) :
    (txLineTransfer s).errWord = s.errWord := rfl
@[simp] theorem txLineTransfer_edges (s : State) :
    (txLineTransfer s).edges = s.edges := rfl
@[simp] theorem txLineTransfer_trace (s : State) :
    (txLineTransfer s).trace = s.trace := rfl

/-! ### `endUnit` -/

@[simp] theorem endUnit_cfg (bits : List Bit) (ovf : Bool) (s : State) :
    (endUnit bits ovf s).cfg = s.cfg := rfl
@[simp] theorem endUnit_txField (bits : List Bit) (ovf : Bool) (s : State) :
    (endUnit bits ovf s).txField = s.txField := rfl
@[simp] theorem endUnit_txPend (bits : List Bit) (ovf : Bool) (s : State) :
    (endUnit bits ovf s).txPend = s.txPend := rfl
@[simp] theorem endUnit_txPendEnd (bits : List Bit) (ovf : Bool) (s : State) :
    (endUnit bits ovf s).txPendEnd = s.txPendEnd := rfl
@[simp] theorem endUnit_rxBits (bits : List Bit) (ovf : Bool) (s : State) :
    (endUnit bits ovf s).rxBits = [] := rfl
@[simp] theorem endUnit_rxOvf (bits : List Bit) (ovf : Bool) (s : State) :
    (endUnit bits ovf s).rxOvf = false := rfl
@[simp] theorem endUnit_rxOut (bits : List Bit) (ovf : Bool) (s : State) :
    (endUnit bits ovf s).rxOut = (unitDecode s.cfg bits ovf).2 := rfl
@[simp] theorem endUnit_rxResult (bits : List Bit) (ovf : Bool) (s : State) :
    (endUnit bits ovf s).rxResult = (unitDecode s.cfg bits ovf).1 := rfl
@[simp] theorem endUnit_cmdErr (bits : List Bit) (ovf : Bool) (s : State) :
    (endUnit bits ovf s).cmdErr = s.cmdErr := rfl
@[simp] theorem endUnit_cmdCause (bits : List Bit) (ovf : Bool) (s : State) :
    (endUnit bits ovf s).cmdCause = s.cmdCause := rfl
@[simp] theorem endUnit_errWord (bits : List Bit) (ovf : Bool) (s : State) :
    (endUnit bits ovf s).errWord = s.errWord := rfl
@[simp] theorem endUnit_edges (bits : List Bit) (ovf : Bool) (s : State) :
    (endUnit bits ovf s).edges = s.edges := rfl
@[simp] theorem endUnit_trace (bits : List Bit) (ovf : Bool) (s : State) :
    (endUnit bits ovf s).trace = s.trace := rfl

/-! ### `rxLineTransfer` -/

@[simp] theorem rxLineTransfer_cfg (b : Bit) (l : Bool) (s : State) :
    (rxLineTransfer b l s).cfg = s.cfg := by unfold rxLineTransfer; cases l <;> rfl
@[simp] theorem rxLineTransfer_txField (b : Bit) (l : Bool) (s : State) :
    (rxLineTransfer b l s).txField = s.txField := by unfold rxLineTransfer; cases l <;> rfl
@[simp] theorem rxLineTransfer_txPend (b : Bit) (l : Bool) (s : State) :
    (rxLineTransfer b l s).txPend = s.txPend := by unfold rxLineTransfer; cases l <;> rfl
@[simp] theorem rxLineTransfer_txPendEnd (b : Bit) (l : Bool) (s : State) :
    (rxLineTransfer b l s).txPendEnd = s.txPendEnd := by unfold rxLineTransfer; cases l <;> rfl
@[simp] theorem rxLineTransfer_rxBits (b : Bit) (l : Bool) (s : State) :
    (rxLineTransfer b l s).rxBits = (if l then [] else (Memory.write s.cfg s.rxBits b).1) := by unfold rxLineTransfer; cases l <;> rfl
@[simp] theorem rxLineTransfer_rxOvf (b : Bit) (l : Bool) (s : State) :
    (rxLineTransfer b l s).rxOvf = (if l then false else s.rxOvf || (Memory.write s.cfg s.rxBits b).2) := by unfold rxLineTransfer; cases l <;> rfl
@[simp] theorem rxLineTransfer_rxOut (b : Bit) (l : Bool) (s : State) :
    (rxLineTransfer b l s).rxOut = (if l then (unitDecode s.cfg (Memory.write s.cfg s.rxBits b).1 (s.rxOvf || (Memory.write s.cfg s.rxBits b).2)).2 else s.rxOut) := by unfold rxLineTransfer; cases l <;> rfl
@[simp] theorem rxLineTransfer_rxResult (b : Bit) (l : Bool) (s : State) :
    (rxLineTransfer b l s).rxResult = (if l then (unitDecode s.cfg (Memory.write s.cfg s.rxBits b).1 (s.rxOvf || (Memory.write s.cfg s.rxBits b).2)).1 else s.rxResult) := by unfold rxLineTransfer; cases l <;> rfl
@[simp] theorem rxLineTransfer_cmdErr (b : Bit) (l : Bool) (s : State) :
    (rxLineTransfer b l s).cmdErr = s.cmdErr := by unfold rxLineTransfer; cases l <;> rfl
@[simp] theorem rxLineTransfer_cmdCause (b : Bit) (l : Bool) (s : State) :
    (rxLineTransfer b l s).cmdCause = s.cmdCause := by unfold rxLineTransfer; cases l <;> rfl
@[simp] theorem rxLineTransfer_errWord (b : Bit) (l : Bool) (s : State) :
    (rxLineTransfer b l s).errWord = s.errWord := by unfold rxLineTransfer; cases l <;> rfl
@[simp] theorem rxLineTransfer_edges (b : Bit) (l : Bool) (s : State) :
    (rxLineTransfer b l s).edges = s.edges := by unfold rxLineTransfer; cases l <;> rfl
@[simp] theorem rxLineTransfer_trace (b : Bit) (l : Bool) (s : State) :
    (rxLineTransfer b l s).trace = s.trace := by unfold rxLineTransfer; cases l <;> rfl

/-! ### `outputTransfer` -/

@[simp] theorem outputTransfer_cfg (s : State) :
    (outputTransfer s).cfg = s.cfg := rfl
@[simp] theorem outputTransfer_txField (s : State) :
    (outputTransfer s).txField = s.txField := rfl
@[simp] theorem outputTransfer_txPend (s : State) :
    (outputTransfer s).txPend = s.txPend := rfl
@[simp] theorem outputTransfer_txPendEnd (s : State) :
    (outputTransfer s).txPendEnd = s.txPendEnd := rfl
@[simp] theorem outputTransfer_rxBits (s : State) :
    (outputTransfer s).rxBits = s.rxBits := rfl
@[simp] theorem outputTransfer_rxOvf (s : State) :
    (outputTransfer s).rxOvf = s.rxOvf := rfl
@[simp] theorem outputTransfer_rxOut (s : State) :
    (outputTransfer s).rxOut = s.rxOut.tail := rfl
@[simp] theorem outputTransfer_rxResult (s : State) :
    (outputTransfer s).rxResult = s.rxResult := rfl
@[simp] theorem outputTransfer_cmdErr (s : State) :
    (outputTransfer s).cmdErr = s.cmdErr := rfl
@[simp] theorem outputTransfer_cmdCause (s : State) :
    (outputTransfer s).cmdCause = s.cmdCause := rfl
@[simp] theorem outputTransfer_errWord (s : State) :
    (outputTransfer s).errWord = s.errWord := rfl
@[simp] theorem outputTransfer_edges (s : State) :
    (outputTransfer s).edges = s.edges := rfl
@[simp] theorem outputTransfer_trace (s : State) :
    (outputTransfer s).trace = s.trace := rfl

/-! ### `State.withFetchWord` -/

@[simp] theorem withFetchWord_cfg (nbits w : Nat) (s : State) :
    (s.withFetchWord nbits w).cfg = s.cfg := rfl
@[simp] theorem withFetchWord_txField (nbits w : Nat) (s : State) :
    (s.withFetchWord nbits w).txField = s.txField := rfl
@[simp] theorem withFetchWord_txPend (nbits w : Nat) (s : State) :
    (s.withFetchWord nbits w).txPend = s.txPend := rfl
@[simp] theorem withFetchWord_txPendEnd (nbits w : Nat) (s : State) :
    (s.withFetchWord nbits w).txPendEnd = s.txPendEnd := rfl
@[simp] theorem withFetchWord_rxBits (nbits w : Nat) (s : State) :
    (s.withFetchWord nbits w).rxBits = s.rxBits := rfl
@[simp] theorem withFetchWord_rxOvf (nbits w : Nat) (s : State) :
    (s.withFetchWord nbits w).rxOvf = s.rxOvf := rfl
@[simp] theorem withFetchWord_rxOut (nbits w : Nat) (s : State) :
    (s.withFetchWord nbits w).rxOut = s.rxOut := rfl
@[simp] theorem withFetchWord_rxResult (nbits w : Nat) (s : State) :
    (s.withFetchWord nbits w).rxResult = s.rxResult := rfl
@[simp] theorem withFetchWord_cmdErr (nbits w : Nat) (s : State) :
    (s.withFetchWord nbits w).cmdErr = s.cmdErr := rfl
@[simp] theorem withFetchWord_cmdCause (nbits w : Nat) (s : State) :
    (s.withFetchWord nbits w).cmdCause = s.cmdCause := rfl
@[simp] theorem withFetchWord_errWord (nbits w : Nat) (s : State) :
    (s.withFetchWord nbits w).errWord = s.errWord := rfl
@[simp] theorem withFetchWord_edges (nbits w : Nat) (s : State) :
    (s.withFetchWord nbits w).edges = offerInputs (BitVec.ofNat 16 (w % 2 ^ nbits)) :: s.edges := rfl
@[simp] theorem withFetchWord_trace (nbits w : Nat) (s : State) :
    (s.withFetchWord nbits w).trace = s.trace := rfl

end Sys2Proof.Machine
end

