-- ==== Sys2Proof/Laws/Ops.lean ====
section
/-! SUPPORT. What each shared operation can do, said once. -/

namespace Sys2Proof.Machine

/-! ### Sequencing -/

@[simp] theorem andThen_next (s : State) (k : State → Result) : andThen (.next s) k = k s := rfl

/-! ### The expander and the packer -/

@[simp] theorem length_bits8 (c : Byte) : (bits8 c).length = 8 := rfl

theorem bits8_ne_nil (c : Byte) : bits8 c ≠ [] := by simp [bits8]

@[simp] theorem expand_nil : expand [] = [] := rfl

@[simp] theorem expand_cons (c : Byte) (s : List Byte) : expand (c :: s) = bits8 c ++ expand s := rfl

@[simp] theorem expand_append (s t : List Byte) : expand (s ++ t) = expand s ++ expand t := by
  simp [expand]

@[simp] theorem length_expand (s : List Byte) : (expand s).length = 8 * s.length := by
  induction s with
  | nil => rfl
  | cons c s ih => simp [ih]; omega

@[simp] theorem expand_eq_nil (s : List Byte) : expand s = [] ↔ s = [] := by
  rw [← List.length_eq_zero_iff, length_expand, ← List.length_eq_zero_iff]; omega

@[simp] theorem groups8_nil : groups8 [] = [] := rfl

/-- The first whole group of a bit string. -/
theorem groups8_eight (b : List Bit) (h : b.length = 8) (rest : List Bit) :
    groups8 (b ++ rest) = pack8 b :: groups8 rest := by
  match b, h with
  | [_, _, _, _, _, _, _, _], _ => rfl

@[simp] theorem length_groups8 (r : List Bit) : (groups8 r).length = r.length / 8 := by
  fun_induction groups8 r with
  | case1 => simp_all; omega
  | case2 r h =>
    have : r.length < 8 := by
      by_contra hr
      match r, hr with
      | b0 :: b1 :: b2 :: b3 :: b4 :: b5 :: b6 :: b7 :: rest, _ => exact h _ _ _ _ _ _ _ _ _ rfl
      | [], hr | [_], hr | [_, _], hr | [_, _, _], hr | [_, _, _, _], hr | [_, _, _, _, _], hr
      | [_, _, _, _, _, _], hr | [_, _, _, _, _, _, _], hr => simp at hr
    simp; omega

/-! ### Configuration -/

/-- R9: the END marker is not empty. -/
theorem endStr_ne_nil (c : Config) : c.endStr ≠ [] := by
  have h := c.isLegal
  simp only [legalConfig, Bool.and_eq_true, decide_eq_true_eq] at h
  rintro he
  simp [he] at h

/-- R9: the buffer holds at least one byte more than the overhead. -/
theorem overhead_lt_buffer (c : Config) : c.lOvh + 1 ≤ c.nRxBuf := by
  have h := c.isLegal
  simp only [legalConfig, Bool.and_eq_true, decide_eq_true_eq] at h
  exact h.2

theorem lE_pos (c : Config) : 0 < c.lE := List.length_pos_iff.mpr (endStr_ne_nil c)

/-- A configuration is refused exactly when it is not legal (R9). -/
theorem ofParameters_eq_none (a b e : List Byte) (n : Nat) :
    Config.ofParameters a b e n = none ↔ legalConfig a b e n = false := by
  unfold Config.ofParameters
  split <;> simp_all

/-! ### The marker ROM -/

@[simp] theorem length_rom (c : Config) : (rom c).length = c.lOvh := by
  simp [rom, Config.lOvh, Config.lS, Config.lC, Config.lE, Nat.add_assoc]

theorem romRange_eq_slice (c : Config) (lo hi : Nat) (h : hi ≤ c.lOvh) :
    romRange c lo hi = ((rom c).take hi).drop lo := by
  have hl : (rom c).length = c.lOvh := length_rom c
  have key : ∀ (n lo : Nat), lo + n ≤ (rom c).length →
      (List.range' lo n).filterMap (romRead c) = ((rom c).drop lo).take n := by
    intro n
    induction n with
    | zero => simp
    | succ n ih =>
      intro lo hlo
      have hlt : lo < (rom c).length := by omega
      rw [List.range'_succ, List.filterMap_cons, ih (lo + 1) (by omega), List.drop_eq_getElem_cons hlt,
        List.take_succ_cons]
      simp only [romRead, List.getElem?_eq_getElem hlt]
  by_cases hle : lo ≤ hi
  · rw [romRange, key (hi - lo) lo (by omega), List.take_drop]
    congr 2; omega
  · have : hi - lo = 0 := by omega
    rw [romRange, this]
    simp; omega

/-- `TXBEGIN`'s ROM bytes (R121). -/
@[simp] theorem romRange_markers (c : Config) :
    romRange c 0 (c.lS + c.lC) = c.startStr ++ c.creatorStr := by
  rw [romRange_eq_slice c _ _ (by simp [Config.lOvh])]
  simp [rom, Config.lS, Config.lC, List.take_append]

/-- `TXEND`'s ROM bytes (R124). -/
@[simp] theorem romRange_end (c : Config) : romRange c (c.lS + c.lC) c.lOvh = c.endStr := by
  rw [romRange_eq_slice c _ _ (Nat.le_refl _)]
  have : (rom c).length = c.lOvh := length_rom c
  rw [← this, List.take_length]
  simp [rom, Config.lS, Config.lC, List.drop_append]

/-! ### The RX frame buffer -/

/-- A write appends the bit while room remains, and otherwise drops it and leaves the contents (R140, R143). -/
theorem Memory.write_cases (c : Config) (bits : List Bit) (b : Bit) :
    (bits.length < 8 * c.nRxBuf ∧ Memory.write c bits b = (bits ++ [b], false))
      ∨ (8 * c.nRxBuf ≤ bits.length ∧ Memory.write c bits b = (bits, true)) := by
  unfold Memory.write
  split
  · exact .inl ⟨‹_›, rfl⟩
  · exact .inr ⟨by omega, rfl⟩

/-- Every write keeps the canonical form of the buffer (R26). -/
theorem Memory.write_wf (c : Config) (bits : List Bit) (b : Bit) (h : Memory.wf c bits = true) :
    Memory.wf c (Memory.write c bits b).1 = true := by
  simp only [Memory.wf, decide_eq_true_eq] at *
  obtain ⟨hlt, hw⟩ | ⟨_, hw⟩ := Memory.write_cases c bits b
  · simp [hw]; omega
  · simpa [hw] using h

theorem Memory.reset_wf : Memory.wf State.reset.cfg State.reset.rxBits = true := by simp [State.reset, Memory.wf]

/-! ### Offering a TX-class word, recording an error -/

theorem offerTx_idle {s : State} (f : State → State) (h : s.txPend = []) : offerTx f s = .next (f s) := by
  simp [offerTx, h]

theorem offerTx_held {s : State} (f : State → State) (h : s.txPend ≠ []) : offerTx f s = .next s := by
  simp [offerTx, h]

/-- Everything an offer can do. -/
theorem offerTx_cases {s t : State} {f : State → State} (h : offerTx f s = .next t) :
    (s.txPend = [] ∧ t = f s) ∨ (s.txPend ≠ [] ∧ t = s) := by
  by_cases hp : s.txPend = []
  · rw [offerTx_idle f hp] at h; exact .inl ⟨hp, by injection h with h; exact h.symm⟩
  · rw [offerTx_held f hp] at h; exact .inr ⟨hp, by injection h with h; exact h.symm⟩

/-! ### The port signals in terms of the state -/

@[simp] theorem cmdReady_of_idle {w : Word} {s : State} (h : s.txPend = []) : cmdReady w s = true := by
  simp [cmdReady, h]

theorem cmdReady_eq_false (w : Word) (s : State) :
    cmdReady w s = false ↔ isTX w = true ∧ s.txPend ≠ [] := by
  simp [cmdReady]

end Sys2Proof.Machine
end

