-- ==== Sys2Proof/Laws/PerInstr.lean ====
section
/-! SUPPORT. Statements made once per instruction: family `TableRow`, the instruction's word against its row of
the opcode table (R77). -/

namespace Sys2Proof.Laws.TableRow

/-- `match` and `mask` of an instruction's row of the opcode table. -/
def row : Instr → Word × Word
  | .nop => (0x0000#16, 0xFFFF#16)
  | .txbegin => (0x1000#16, 0xFFFF#16)
  | .txchar _ => (0x2000#16, 0xFF00#16)
  | .txsep => (0x3000#16, 0xFFFF#16)
  | .txend => (0x4000#16, 0xFFFF#16)
  | .clrstat => (0x5000#16, 0xFFFF#16)

/-- The instruction's word matches its row, the port's class test agrees with the row's class, and the operand
field holds the operand. -/
def Statement (i : Instr) : Prop :=
  encode i &&& (row i).2 = (row i).1 ∧ isTX (encode i) = i.txClass
    ∧ ∀ d, i = .txchar d → dataField (encode i) = d

theorem nop : Statement .nop := ⟨by decide, by decide, nofun⟩

theorem txbegin : Statement .txbegin := ⟨by decide, by decide, nofun⟩

theorem txchar (d : Byte) : Statement (.txchar d) := by
  have key : ∀ d : Byte, encode (.txchar d) &&& 0xFF00#16 = 0x2000#16 ∧ dataField (encode (.txchar d)) = d := by
    decide
  refine ⟨(key d).1, ?_, fun e h => ?_⟩
  · simp [isTX, (key d).1, Instr.txClass]
  · injection h with h; exact h ▸ (key d).2

theorem txsep : Statement .txsep := ⟨by decide, by decide, nofun⟩

theorem txend : Statement .txend := ⟨by decide, by decide, nofun⟩

theorem clrstat : Statement .clrstat := ⟨by decide, by decide, nofun⟩

end Sys2Proof.Laws.TableRow
end

