-- ==== Sys2Proof/Laws/Step.lean ====
section
/-! SUPPORT. Every command and every transfer answers a next state; what a command keeps; one edge and one run
as transfers performed one after another. -/

namespace Sys2Proof.Machine

/-! ### Commands -/

/-- Every command answers a next state, and it keeps the constants, the RX buffer, the items and the
environment's lists. -/
theorem exec_next (i : Instr) (s : State) :
    ∃ t, exec i s = .next t ∧ t.cfg = s.cfg ∧ t.rxBits = s.rxBits ∧ t.rxOvf = s.rxOvf ∧ t.rxOut = s.rxOut
      ∧ t.edges = s.edges ∧ t.trace = s.trace := by
  cases i with
  | nop => exact ⟨s, rfl, rfl, rfl, rfl, rfl, rfl, rfl⟩
  | clrstat => exact ⟨_, rfl, rfl, rfl, rfl, rfl, rfl, rfl⟩
  | txbegin | txchar d | txsep | txend =>
    simp only [exec, execTxbegin, execTxchar, execTxsep, execTxend, offerTx]
    split
    · split <;> exact ⟨_, rfl, by simp⟩
    · exact ⟨s, rfl, by simp⟩

/-- Everything a command can do. -/
theorem exec_cases {i : Instr} {s t : State} (h : exec i s = .next t) :
    (i = .nop ∧ t = s)
      ∨ (i = .clrstat ∧ t = { s with cmdErr := false, cmdCause := .none, errWord := 0x0000#16, rxResult := .none })
      ∨ (i.txClass = true ∧ s.txPend ≠ [] ∧ t = s)
      ∨ (∃ f, i.txClass = true ∧ s.txPend = [] ∧ nextTxField s.txField i = some f
          ∧ t = queueTx f (queuedBytes s.cfg i) (decide (i = .txend)) s)
      ∨ (i.txClass = true ∧ s.txPend = [] ∧ nextTxField s.txField i = none
          ∧ t = raiseCmdError .sequence (encode i) s) := by
  cases i with
  | nop => injection h with h; exact .inl ⟨rfl, h.symm⟩
  | clrstat => injection h with h; exact .inr (.inl ⟨rfl, h.symm⟩)
  | txbegin | txchar d | txsep | txend =>
    obtain ⟨hp, ht⟩ | ⟨hp, ht⟩ := offerTx_cases (f := _) (by simpa only [exec, execTxbegin, execTxchar,
      execTxsep, execTxend] using h)
    · right; right; right
      cases hf : s.txField <;> simp [hf] at ht <;> simp [nextTxField, Instr.txClass, hp, queuedBytes, ht]
    · exact .inr (.inr (.inl ⟨rfl, hp, ht⟩))

/-- An accepted word likewise. -/
theorem performWord_next (w : Word) (s : State) :
    ∃ t, performWord w s = .next t ∧ t.cfg = s.cfg ∧ t.rxBits = s.rxBits ∧ t.rxOvf = s.rxOvf
      ∧ t.rxOut = s.rxOut ∧ t.edges = s.edges ∧ t.trace = s.trace := by
  unfold performWord
  split
  · exact exec_next _ s
  · exact ⟨_, rfl, by simp⟩

/-! ### Transfers -/

/-- Every transfer answers a next state, keeps the constants and the coming edges, and is noted once. -/
theorem fire_next (t : Transfer) (s : State) :
    ∃ s', t.fire s = .next s' ∧ s'.cfg = s.cfg ∧ s'.edges = s.edges ∧ s'.trace = s.trace ++ [t] := by
  cases t with
  | reset => exact ⟨_, rfl, by simp⟩
  | command w =>
    obtain ⟨t, ht, h⟩ := performWord_next w (record (.command w) s)
    exact ⟨t, ht, by simpa using h.1, by simpa using h.2.2.2.2.1, by simpa using h.2.2.2.2.2⟩
  | txLine b l => exact ⟨_, rfl, by simp⟩
  | rxLine b l => exact ⟨_, rfl, by simp⟩
  | output i => exact ⟨_, rfl, by simp⟩

theorem fireAll_nil (s : State) : fireAll [] s = .next s := rfl

theorem fireAll_cons (t : Transfer) (ts : List Transfer) (s : State) :
    fireAll (t :: ts) s = andThen (t.fire s) (fireAll ts) := rfl

theorem fireAll_append (ts us : List Transfer) (s : State) :
    fireAll (ts ++ us) s = andThen (fireAll ts s) (fireAll us) := by
  induction ts generalizing s with
  | nil => rfl
  | cons t ts ih =>
    obtain ⟨s', h, _⟩ := fire_next t s
    simp [fireAll_cons, h, ih]

/-- Any list of transfers answers a next state, keeps the constants and the coming edges, and is noted. -/
theorem fireAll_next (ts : List Transfer) (s : State) :
    ∃ s', fireAll ts s = .next s' ∧ s'.cfg = s.cfg ∧ s'.edges = s.edges ∧ s'.trace = s.trace ++ ts := by
  induction ts generalizing s with
  | nil => exact ⟨s, rfl, by simp⟩
  | cons t ts ih =>
    obtain ⟨s', h, hc, he, ht⟩ := fire_next t s
    obtain ⟨s'', h', hc', he', ht'⟩ := ih s'
    exact ⟨s'', by simp [fireAll_cons, h, h'], hc'.trans hc, he'.trans he, by simp [ht', ht]⟩

/-! ### One edge, one step, one run -/

theorem edgeTransfers_reset {p : Inputs} (s : State) (h : p.rst = true) : edgeTransfers p s = [.reset] := by
  simp [edgeTransfers, commandTransfer, txTransfer, rxTransfer, outTransfer, outputs, h]

theorem edgeTransfers_run {p : Inputs} (s : State) (h : p.rst = false) :
    edgeTransfers p s = commandTransfer p s ++ txTransfer p s ++ rxTransfer p s ++ outTransfer p s := by
  simp [edgeTransfers, h]

/-- The transfers of an edge do not depend on the edges after it. -/
@[simp] theorem edgeTransfers_edges (p : Inputs) (s : State) (es : List Inputs) :
    edgeTransfers p { s with edges := es } = edgeTransfers p s := rfl

theorem step_of_no_edge {s : State} (h : s.edges = []) : step s = .next s := by simp [step, nextEdge, h]

theorem step_of_edge {s : State} {p : Inputs} {rest : List Inputs} (h : s.edges = p :: rest) :
    step s = fireAll (edgeTransfers p s) { s with edges := rest } := by
  simp [step, nextEdge, h, clockEdge]

theorem runSteps_zero (s : State) : runSteps 0 s = .next s := rfl

theorem run_succ (M : Host.Core) (k : Nat) (s t : M.State) (h : M.step s = .next t) :
    M.run (k + 1) s = M.run k t := by
  simp [Host.Core.run, h]

theorem runSteps_succ {s t : State} (k : Nat) (h : step s = .next t) : runSteps (k + 1) s = runSteps k t :=
  run_succ Sys2Proof.core k s t h

end Sys2Proof.Machine
end

