-- ==== Sys2Proof/Tests/Slice0.lean ====
section
/-! SUPPORT. Tests: words decoded bit by bit, the ill-formed terms that are refused, the vectors of
95_test_vectors.md for one transfer or one function each, and a witness for every statement's hypotheses. -/

namespace Sys2Proof.Tests

open Sys2Proof Sys2Proof.Machine

/-! ### Helpers -/

/-- The configuration EX of 95_test_vectors.md section 0. -/
def ex : Config where
  startStr := [0x7B#8, 0x53#8]
  creatorStr := [0x41#8]
  endStr := [0x45#8, 0x7D#8]
  nRxBuf := 16

/-- EX after reset. -/
def exReset : State := { State.reset with cfg := ex }

/-- EX with the country open and the line idle, STATUS 0x00000002. -/
def exCountry : State := { exReset with txField := .country }

/-- EX with the text open and the line idle, STATUS 0x00000004. -/
def exText : State := { exReset with txField := .text }

/-- EX with the country open and bits pending, STATUS 0x00000003. -/
def exBusy : State := { exCountry with txPend := expand [0x7B#8, 0x53#8, 0x41#8] }

/-- EX with a recorded SEQUENCE error of the word 0x2041, STATUS 0x20410028. -/
def exError : State := { exReset with cmdErr := true, cmdCause := .sequence, errWord := 0x2041#16 }

/-- EX after the unit of `FrameBytes("", "")`: six items pending, STATUS 0x00000140. -/
def exItems : State :=
  { exReset with rxResult := .ok, rxOut := itemsOf ex (expand [0x7B#8, 0x53#8, 0x41#8, 0x2C#8, 0x45#8, 0x7D#8]) }

/-- The smallest legal configuration: no START, no creator tag, one END byte, a buffer of two bytes. -/
def small : Config where
  endStr := [0x7D#8]
  nRxBuf := 2

def smallReset : State := { State.reset with cfg := small }

/-- A result is a next state with a property. -/
def holdsNext (r : Result) (p : State → Bool) : Bool :=
  match r with
  | .next s => p s
  | .fault _ => false
  | .refused _ => false

/-- The STATUS after one step in which the host alone offers `w`. -/
def statusAfter (w : Nat) (s : State) : Option StatusWord :=
  match step (s.withFetchWord 16 w) with
  | .next t => some (status t)
  | .fault _ => none
  | .refused _ => none

/-- The STATUS after one edge. -/
def statusEdge (p : Inputs) (s : State) : Option StatusWord :=
  match step { s with edges := [p] } with
  | .next t => some (status t)
  | .fault _ => none
  | .refused _ => none

/-! ### Decoding, words written out from R75's fields: OP, RSV, DATA -/

theorem test_decode_nop : decodeCmd (0b0000#4 ++ 0b0000#4 ++ 0b00000000#8) = .ok .nop := by decide
theorem test_decode_txbegin : decodeCmd (0b0001#4 ++ 0b0000#4 ++ 0b00000000#8) = .ok .txbegin := by decide
theorem test_decode_txchar :
    decodeCmd (0b0010#4 ++ 0b0000#4 ++ 0b01101110#8) = .ok (.txchar 0x6E#8)
      ∧ decodeCmd (0b0010#4 ++ 0b0000#4 ++ 0b10000001#8) = .ok (.txchar 0x81#8) := by decide
theorem test_decode_txsep : decodeCmd (0b0011#4 ++ 0b0000#4 ++ 0b00000000#8) = .ok .txsep := by decide
theorem test_decode_txend : decodeCmd (0b0100#4 ++ 0b0000#4 ++ 0b00000000#8) = .ok .txend := by decide
theorem test_decode_clrstat : decodeCmd (0b0101#4 ++ 0b0000#4 ++ 0b00000000#8) = .ok .clrstat := by decide

/-- R79, R163: the three kinds of illegal word, at the edges of their ranges. -/
theorem test_decode_illegal :
    decodeCmd 0x6000#16 = .error (.unassignedOp 0x6000#16) ∧ decodeCmd 0xFFFF#16 = .error (.unassignedOp 0xFFFF#16)
      ∧ decodeCmd 0x2100#16 = .error (.reservedBits 0x2100#16) ∧ decodeCmd 0x5800#16 = .error (.reservedBits 0x5800#16)
      ∧ decodeCmd 0x1001#16 = .error (.unusedData 0x1001#16) ∧ decodeCmd 0x0001#16 = .error (.unusedData 0x0001#16) := by
  decide

/-- R77: every row of the opcode table, read as the host reads it. -/
theorem test_table_words :
    decodeTableWord 16 0x0000 = some .nop ∧ decodeTableWord 16 0x1000 = some .txbegin
      ∧ decodeTableWord 16 0x2000 = some (.txchar 0x00#8) ∧ decodeTableWord 16 0x3000 = some .txsep
      ∧ decodeTableWord 16 0x4000 = some .txend ∧ decodeTableWord 16 0x5000 = some .clrstat
      ∧ decodeTableWord 16 0x6000 = none ∧ decodeTableWord 16 0x10000 = none := by decide

/-! ### Smoke: each check refuses an ill-formed term -/

/-- R9: a byte above 0x7F in each string, an empty END marker, a buffer one byte too small. -/
theorem smoke_config :
    Config.ofParameters [0x80#8] [] [0x7D#8] 16 = none ∧ Config.ofParameters [] [0xFF#8] [0x7D#8] 16 = none
      ∧ Config.ofParameters [] [] [0x80#8] 16 = none ∧ Config.ofParameters [0x7B#8] [0x41#8] [] 16 = none
      ∧ Config.ofParameters [0x7B#8, 0x53#8] [0x41#8] [0x45#8, 0x7D#8] 5 = none
      ∧ (Config.ofParameters [0x7B#8, 0x53#8] [0x41#8] [0x45#8, 0x7D#8] 6).isSome = true
      ∧ (Config.ofParameters [] [] [0x7F#8] 2).isSome = true := by decide

/-- R86, R142: numbers out of range, a unit with no bit. -/
theorem smoke_asm_line :
    (AsmLine.txchar 256).wellFormed = false ∧ (AsmLine.txchar 255).wellFormed = true
      ∧ (AsmLine.word 65536).wellFormed = false ∧ (AsmLine.word 65535).wellFormed = true
      ∧ (AsmLine.rxBytes []).wellFormed = false ∧ (AsmLine.rxBits [] true).wellFormed = false
      ∧ (AsmLine.rxBits [] false).wellFormed = true ∧ (Instr.txchar 0xFF#8).wellFormed = true := by decide

/-! ### The six commands and illegal words: 95_test_vectors.md sections 2.3 and 2.5 -/

theorem test_txbegin :
    statusAfter 0x1000 exReset = some 0x00000003#32
      ∧ holdsNext (step (exReset.withFetchWord 16 0x1000)) (fun t => t.txPend
          == expand [0x7B#8, 0x53#8, 0x41#8]) = true
      ∧ statusAfter 0x1000 exCountry = some 0x1000002A#32 := by decide

theorem test_txbegin_no_markers : statusAfter 0x1000 smallReset = some 0x00000002#32 := by decide

theorem test_txchar :
    holdsNext (step (exCountry.withFetchWord 16 0x2049)) (fun t => t.txPend
        == [false, true, false, false, true, false, false, true]) = true
      ∧ statusAfter 0x2049 exCountry = some 0x00000003#32 ∧ statusAfter 0x2000 exText = some 0x00000005#32 := by decide

theorem test_txchar_rejected_or_held :
    statusAfter 0x2041 exReset = some 0x20410028#32 ∧ statusAfter 0x206E exBusy = some 0x00000003#32 := by decide

theorem test_txsep :
    holdsNext (step (exCountry.withFetchWord 16 0x3000)) (fun t => t.txPend
        == [false, false, true, false, true, true, false, false]) = true
      ∧ statusAfter 0x3000 exCountry = some 0x00000005#32 := by decide

theorem test_txsep_rejected :
    statusAfter 0x3000 exReset = some 0x30000028#32 ∧ statusAfter 0x3000 exText = some 0x3000002C#32 := by decide

theorem test_txend :
    holdsNext (step (exText.withFetchWord 16 0x4000)) (fun t => t.txPendEnd && t.txPend
        == [false, true, false, false, false, true, false, true, false, true, true, true, true, true, false, true])
      = true ∧ statusAfter 0x4000 exText = some 0x00000001#32 := by decide

theorem test_txend_rejected :
    statusAfter 0x4000 exReset = some 0x40000028#32 ∧ statusAfter 0x4000 exCountry = some 0x4000002A#32 := by decide

theorem test_nop :
    statusAfter 0x0000 exBusy = some 0x00000003#32 ∧ statusAfter 0x0000 exError = some 0x20410028#32 := by decide

theorem test_clrstat :
    statusAfter 0x5000 exError = some 0x00000000#32 ∧ statusAfter 0x5000 exItems = some 0x00000040#32 := by decide

theorem test_illegal :
    statusAfter 0x6000 exReset = some 0x60000018#32 ∧ statusAfter 0x1001 exReset = some 0x10010018#32
      ∧ statusAfter 0x7000 exBusy = some 0x7000001B#32 ∧ statusAfter 0x6000 exError = some 0x20410028#32 := by decide

/-- The machine right after reset, whatever its configuration: an offered word is its first instruction. -/
theorem test_first_instruction :
    holdsNext (step (State.reset.withFetchWord 16 0x1000)) (fun t => t.txField == .country) = true
      ∧ statusAfter 0x2000 State.reset = some 0x20000028#32 ∧ statusAfter 0x3000 State.reset = some 0x30000028#32
      ∧ statusAfter 0x4000 State.reset = some 0x40000028#32 ∧ statusAfter 0x0000 State.reset = some 0x00000000#32
      ∧ statusAfter 0x5000 State.reset = some 0x00000000#32 := by decide

/-! ### Line and output transfers, reset: sections 2.3 and 2.4 -/

/-- R127: the last END bit leaves with `tx_last` = 1, the one before with 0. -/
theorem test_tx_last :
    holdsNext (step { exReset with txPend := [true], txPendEnd := true, edges := [sinkInputs] })
        (fun t => t.trace == [.txLine true true] && status t == 0x00000000#32) = true
      ∧ holdsNext (step { exReset with txPend := [false, true], txPendEnd := true, edges := [sinkInputs] })
        (fun t => t.trace == [.txLine false false] && status t == 0x00000001#32) = true := by decide

/-- Units of 1, 8, 32, 35 and 48 bits, each at its last bit. -/
theorem test_rx_unit :
    statusEdge (rxInputs (true, true)) exReset = some 0x00000300#32
      ∧ statusEdge (rxInputs (true, true)) { exReset with rxBits := List.replicate 7 true } = some 0x00000200#32
      ∧ statusEdge (rxInputs (true, true)) { exReset with rxBits := List.replicate 31 true } = some 0x00000200#32
      ∧ statusEdge (rxInputs (true, true)) { exReset with rxBits := List.replicate 34 true } = some 0x00000300#32
      ∧ statusEdge (rxInputs (true, true)) { exReset with rxBits := List.replicate 39 true } = some 0x00000140#32 := by
  decide

set_option maxRecDepth 8000 in
/-- The 128th bit is kept, the 129th is dropped (R143). -/
theorem test_rx_overflow :
    statusEdge (rxInputs (true, true)) { exReset with rxBits := List.replicate 127 true } = some 0x00000140#32
      ∧ statusEdge (rxInputs (true, false)) { exReset with rxBits := List.replicate 128 true } = some 0x00000880#32
      ∧ statusEdge (rxInputs (true, true)) { exReset with rxBits := List.replicate 128 true } = some 0x00000400#32 := by
  decide

/-- An RX bit offered while items are pending is not accepted (R152); an item taken leaves RX_BUSY. -/
theorem test_output :
    statusEdge (rxInputs (true, true)) exItems = some 0x00000140#32
      ∧ holdsNext (step { exItems with edges := [drainInputs] }) (fun t =>
          t.trace == [.output ⟨0x7B#8, .start, false, false⟩] && status t == 0x00000140#32) = true := by decide

/-- `CLRSTAT` and the 48th bit at the same edge: the unit's result survives (R42). -/
theorem test_same_edge :
    statusEdge { offerInputs 0x5000#16 with rxValid := true, rxBit := true, rxLast := true }
        { exReset with
          rxResult := .short
          rxBits := (expand [0x7B#8, 0x53#8, 0x41#8, 0x2C#8, 0x45#8, 0x7D#8]).dropLast }
      = some 0x00000140#32 := by decide

/-- R190: reset wins over a command offered at the same edge. -/
theorem test_reset :
    statusEdge { offerInputs 0x6000#16 with rst := true } exItems = some 0x00000000#32
      ∧ statusEdge { rst := true } exBusy = some 0x00000000#32 := by decide

/-! ### The codec's functions: sections 1, 2.1 and 2.2 -/

theorem test_expand_pack :
    bits8 0x80#8 = [true, false, false, false, false, false, false, false]
      ∧ bits8 0x2C#8 = [false, false, true, false, true, true, false, false]
      ∧ pack8 [false, true, false, false, true, false, false, true] = 0x49#8
      ∧ pack8 [true, false, false, false, false, false, false, false] = 0x80#8
      ∧ pack8 (List.replicate 8 true) = 0xFF#8 := by decide

/-- `Encode("", "")`, and the bytes of `Encode("a,b", "")` and `Encode([0x00], [0xFF])`. -/
theorem test_encode :
    encodeFrame ex [] [] = expand [0x7B#8, 0x53#8, 0x41#8, 0x2C#8, 0x45#8, 0x7D#8]
      ∧ (encodeFrame ex [] []).length = 48
      ∧ wireBytes (encodeFrame ex [0x61#8, 0x2C#8, 0x62#8] [])
          = [0x7B#8, 0x53#8, 0x41#8, 0x61#8, 0x2C#8, 0x62#8, 0x2C#8, 0x45#8, 0x7D#8]
      ∧ wireBytes (encodeFrame ex [0x00#8] [0xFF#8])
          = [0x7B#8, 0x53#8, 0x41#8, 0x00#8, 0x2C#8, 0xFF#8, 0x45#8, 0x7D#8] := by decide

/-- Decode of 40 bits (empty payload), of six zero bytes (no marker check), and of 32 bits (outside the domain). -/
theorem test_decode_frame :
    decodeFrame ex (expand [0x7B#8, 0x53#8, 0x41#8, 0x45#8, 0x7D#8])
        = some ⟨[0x7B#8, 0x53#8], [0x41#8], [], [0x45#8, 0x7D#8]⟩
      ∧ decodeFrame ex (List.replicate 48 false)
        = some ⟨[0x00#8, 0x00#8], [0x00#8], [0x00#8], [0x00#8, 0x00#8]⟩
      ∧ decodeFrame ex (List.replicate 32 false) = none := by decide

/-- The items of `Encode("", "")`, and of its first five bytes, where the separator is tagged END (L1.5). -/
theorem test_items :
    itemsOf ex (encodeFrame ex [] [])
        = [⟨0x7B#8, .start, false, false⟩, ⟨0x53#8, .start, true, false⟩, ⟨0x41#8, .creator, true, false⟩,
           ⟨0x2C#8, .payload, true, false⟩, ⟨0x45#8, .endMarker, false, false⟩, ⟨0x7D#8, .endMarker, true, true⟩]
      ∧ itemsOf ex (expand [0x7B#8, 0x53#8, 0x41#8, 0x2C#8, 0x45#8])
        = [⟨0x7B#8, .start, false, false⟩, ⟨0x53#8, .start, true, false⟩, ⟨0x41#8, .creator, true, false⟩,
           ⟨0x2C#8, .endMarker, false, false⟩, ⟨0x45#8, .endMarker, true, true⟩] := by decide

/-- The priority of the unit errors (R180). -/
theorem test_unit_priority :
    (unitDecode ex (List.replicate 128 true) true).1 = .overflow
      ∧ (unitDecode ex (List.replicate 35 true) false).1 = .partialUnit
      ∧ (unitDecode ex (List.replicate 32 true) false).1 = .short
      ∧ (unitDecode ex (List.replicate 40 true) false).1 = .ok := by decide

/-! ### The assembler: R86 to R88 and the programs of section 3 -/

theorem test_asm_commands :
    readLine "   TXCHAR 'I'      ; 0x2049".toList = some (some (.txchar 0x49))
      ∧ readLine "txchar 0x2C".toList = some (some (.txchar 44)) ∧ readLine "TXCHAR 256".toList = none
      ∧ readLine ".word 0x6000".toList = some (some (.word 0x6000)) ∧ readLine "; a comment".toList = some none
      ∧ readLine "TXEND".toList = some (some .txend) ∧ readLine "TXEND 3".toList = none := by decide

theorem test_asm_events :
    readLine "sink tx".toList = some (some .sinkTx) ∧ readLine "drain ;".toList = some (some .drain)
      ∧ readLine "rx \"7B 53\" last".toList = some (some (.rxBytes [0x7B#8, 0x53#8]))
      ∧ readLine "rx bits \"01\"".toList = some (some (.rxBits [false, true] false))
      ∧ readLine "rx bits \"\" last".toList = none
      ∧ readLine "TXFRAME \"I\", \"\"".toList = some (some (.txframe [0x49#8] [])) := by decide

/-- P2's words. -/
theorem test_txframe_words :
    asmActions (.txframe [0x49#8, 0x6E#8] [0x68#8])
      = [.offer 0x1000#16, .offer 0x2049#16, .offer 0x206E#16, .offer 0x3000#16, .offer 0x2068#16, .offer 0x4000#16] := by
  decide

/-- Program P3: errors and their clearing. -/
theorem test_program_errors :
    holdsNext (playProgram [.txchar 0x41, .word 0x6000] exReset) (fun t => status t == 0x20410028#32) = true
      ∧ holdsNext (playProgram [.txchar 0x41, .word 0x6000, .clrstat, .word 0x6000] exReset)
        (fun t => status t == 0x60000018#32) = true := by decide

/-! ### Witnesses: for each statement with hypotheses, states and operands that meet them together -/

theorem witness_DecodeAndEncodeAgree :
    (Instr.txchar 0xFF#8).wellFormed = true ∧ decodeCmd 0x20FF#16 = .ok (.txchar 0xFF#8)
      ∧ 0x20FF#16 = encode (.txchar 0xFF#8) := by decide

theorem witness_CommandPortTestIsTxClass :
    isTX 0x20FF#16 = true ∧ decodeCmd 0x20FF#16 = .ok (.txchar 0xFF#8) ∧ (Instr.txchar 0xFF#8).txClass = true
      ∧ isTX 0x2100#16 = false := by decide

theorem witness_TxbeginOpensTheFrame :
    exReset.txPend = [] ∧ exReset.txField = .idle ∧ exCountry.txPend = [] ∧ exCountry.txField ≠ .idle := by decide

theorem witness_TxcharQueuesTheCharacter :
    exCountry.txPend = [] ∧ exCountry.txField = .country ∧ exText.txPend = [] ∧ exText.txField = .text
      ∧ exReset.txPend = [] ∧ exReset.txField = .idle := by decide

theorem witness_TxsepOpensTheText :
    exCountry.txPend = [] ∧ exCountry.txField = .country ∧ exText.txPend = [] ∧ exText.txField ≠ .country := by decide

theorem witness_TxendClosesTheFrame :
    exText.txPend = [] ∧ exText.txField = .text ∧ exCountry.txPend = [] ∧ exCountry.txField ≠ .text := by decide

theorem witness_OnlyTheFirstErrorIsRecorded : exReset.cmdErr = false ∧ exError.cmdErr = true := by decide

theorem witness_OutOfOrderCommandsAreRejected :
    Instr.txend.txClass = true ∧ exCountry.txPend = [] ∧ nextTxField exCountry.txField .txend = none := by decide

theorem witness_InOrderCommandsArePerformed :
    exText.txPend = [] ∧ nextTxField exText.txField .txend = some .idle := by decide

theorem witness_TxWordsAreHeldWhilePending : Instr.txbegin.txClass = true ∧ exBusy.txPend ≠ [] := by decide

/-- One command for each clause: not `CLRSTAT`; not TX-class; rejected; `TXCHAR`; performed. -/
theorem witness_CommandFrame :
    (∃ t, exec .nop exBusy = .next t) ∧ (∃ t, exec .clrstat exItems = .next t)
      ∧ (∃ t, exec .txend exCountry = .next t) ∧ nextTxField exCountry.txField .txend = none
      ∧ (∃ t, exec (.txchar 0x2C#8) exText = .next t)
      ∧ (nextTxField exText.txField (.txchar 0x2C#8)).isSome = true :=
  ⟨⟨_, rfl⟩, ⟨_, rfl⟩, ⟨_, rfl⟩, by decide, ⟨_, rfl⟩, by decide⟩

theorem witness_IllegalWordsAreRecorded : ∃ e, decodeCmd 0x6000#16 = .error e := ⟨.unassignedOp 0x6000#16, by decide⟩

theorem witness_OtherWordsAreNeverHeld : isTX 0x0000#16 = false ∧ isTX 0x5000#16 = false ∧ isTX 0x1001#16 = false := by
  decide

/-- A legal word on an idle line, and an illegal one while bits are pending. -/
theorem witness_StepRunsTheAcceptedCommand :
    (exCountry.withFetchWord 16 0x3000).edges = offerInputs 0x3000#16 :: []
      ∧ (offerInputs 0x3000#16).rst = false ∧ (offerInputs 0x3000#16).cmdValid = true
      ∧ cmdReady (offerInputs 0x3000#16).cmdWord (exCountry.withFetchWord 16 0x3000) = true
      ∧ decodeCmd (offerInputs 0x3000#16).cmdWord = .ok .txsep
      ∧ offerInputs 0x3000#16 = offerInputs (offerInputs 0x3000#16).cmdWord
      ∧ (exBusy.withFetchWord 16 0x7000).edges = offerInputs 0x7000#16 :: []
      ∧ (offerInputs 0x7000#16).rst = false ∧ (offerInputs 0x7000#16).cmdValid = true
      ∧ decodeCmd (offerInputs 0x7000#16).cmdWord = .error (.unassignedOp 0x7000#16)
      ∧ offerInputs 0x7000#16 = offerInputs (offerInputs 0x7000#16).cmdWord := by decide

theorem witness_StepHoldsABusyCommand :
    (exBusy.withFetchWord 16 0x3000).edges = offerInputs 0x3000#16 :: []
      ∧ cmdReady 0x3000#16 (exBusy.withFetchWord 16 0x3000) = false := by decide

/-- The two clauses: one reset edge, and a second one after it. -/
theorem witness_ResetEdgeResetsEverything :
    ({ rst := true, rxValid := true } : Inputs).rst = true ∧ ({ rst := true } : Inputs).rst = true
      ∧ ({ exBusy with edges := [{ rst := true, rxValid := true }, { rst := true }] } : State).edges
        = { rst := true, rxValid := true } :: [{ rst := true }] := by decide

theorem witness_PortsAfterReset : (offerInputs 0x1000#16).rst = false := by decide

/-- A state for each clause: pending bits and none, items and none. -/
theorem witness_PortsFollowTheState :
    (offerInputs 0x1000#16).rst = false ∧ ({ rst := true } : Inputs).rst = true
      ∧ exBusy.txPend = false :: (exBusy.txPend).tail ∧ exReset.txPend = []
      ∧ exItems.rxOut = ⟨0x7B#8, .start, false, false⟩ :: exItems.rxOut.tail ∧ exReset.rxOut = [] := by decide

/-- The last pending bit of an END marker. -/
theorem witness_TxLineDeliversTheHead :
    ({ exReset with txPend := [true], txPendEnd := true, edges := [sinkInputs] } : State).edges = sinkInputs :: []
      ∧ sinkInputs.rst = false ∧ sinkInputs.txReady = true
      ∧ ({ exReset with txPend := [true], txPendEnd := true, edges := [sinkInputs] } : State).txPend = true :: [] := by
  decide

set_option maxRecDepth 8000 in
/-- The buffer one bit short of full, and full; the bit ends the unit, and does not. -/
theorem witness_RxLineKeepsOrEndsTheUnit :
    (rxInputs (true, false)).rst = false ∧ (rxInputs (true, false)).rxValid = true
      ∧ (rxInputs (true, false)).rxLast = false ∧ (rxInputs (true, true)).rxLast = true
      ∧ (rxInputs (true, false)).cmdValid = false ∧ exReset.rxOut = []
      ∧ (List.replicate 127 true).length < 8 * ex.nRxBuf ∧ 8 * ex.nRxBuf ≤ (List.replicate 128 true).length := by decide

theorem witness_OutputDeliversTheHead :
    drainInputs.rst = false ∧ drainInputs.outReady = true
      ∧ exItems.rxOut = ⟨0x7B#8, .start, false, false⟩ :: exItems.rxOut.tail ∧ ItemsClosed exItems := by
  unfold ItemsClosed; decide

theorem witness_LineAndOutputTransfersFrame :
    Transfer.txLine true false ≠ .reset ∧ (∀ w, Transfer.txLine true false ≠ .command w)
      ∧ (∀ b, Transfer.rxLine true false ≠ .rxLine b true)
      ∧ (∀ i, Transfer.txLine true false ≠ .output i) := by
  refine ⟨nofun, nofun, nofun, nofun⟩

theorem witness_SameEdgeTransfers :
    (offerInputs 0x4000#16).rst = false ∧ isTX (offerInputs 0x4000#16).cmdWord = true
      ∧ ({ offerInputs 0x5000#16 with rxValid := true, rxLast := true } : Inputs).rst = false
      ∧ ({ offerInputs 0x5000#16 with rxValid := true, rxLast := true } : Inputs).cmdWord = 0x5000#16
      ∧ exReset.rxOut = [] := by decide

/-- An edge without reset and one with it; one enabled transfer on each port, and reset. -/
theorem witness_InterleavingEqualsTheEdge :
    (Transfer.command 0x7000#16).enabled exBusy = true ∧ (Transfer.txLine false false).enabled exBusy = true
      ∧ (Transfer.rxLine true true).enabled exReset = true
      ∧ (Transfer.output ⟨0x7B#8, .start, false, false⟩).enabled exItems = true
      ∧ Transfer.reset.enabled exItems = true ∧ (offerInputs 0x1000#16).rst = false
      ∧ ({ rst := true } : Inputs).rst = true := by decide

/-- The last END bit pending, in a state that meets the invariant. -/
theorem witness_EveryStepKeepsTheInvariant :
    Inv { exError with txPend := [true], txPendEnd := true, edges := [sinkInputs] }
      ∧ ∃ t, step { exError with txPend := [true], txPendEnd := true, edges := [sinkInputs] } = .next t :=
  ⟨⟨by decide, by decide, by decide, by decide, by decide, by decide, by decide⟩, ⟨_, rfl⟩⟩

theorem witness_EveryStepKeepsItemsClosed :
    ItemsClosed { exItems with edges := [drainInputs] }
      ∧ ∃ t, step { exItems with edges := [drainInputs] } = .next t :=
  ⟨by unfold ItemsClosed; decide, ⟨_, rfl⟩⟩

theorem witness_NoStepChangesTheConstants : ∃ t, step { exReset with edges := [{ rst := true }] } = .next t :=
  ⟨_, rfl⟩

theorem witness_CommandErrorsAreSticky :
    (exError.withFetchWord 16 0x6000).cmdErr = true ∧ (∃ t, step (exError.withFetchWord 16 0x6000) = .next t)
      ∧ ∀ p ∈ (exError.withFetchWord 16 0x6000).edges.head?,
          p.rst = false ∧ ¬ (p.cmdValid = true ∧ p.cmdWord = 0x5000#16) :=
  ⟨by decide, ⟨_, rfl⟩, by decide⟩

/-- The pointer moves by each of the four causes. -/
theorem witness_FieldPointerMovesInOrder :
    holdsNext (step (exReset.withFetchWord 16 0x1000)) (fun t => t.txField != .idle) = true
      ∧ holdsNext (step (exCountry.withFetchWord 16 0x3000)) (fun t => t.txField != .country) = true
      ∧ holdsNext (step (exText.withFetchWord 16 0x4000)) (fun t => t.txField != .text) = true
      ∧ holdsNext (step { exText with edges := [{ rst := true }] }) (fun t => t.txField != .text) = true := by decide

theorem witness_TxHang :
    exBusy.txPend ≠ [] ∧ (∀ p ∈ ([offerInputs 0x3000#16, offerInputs 0x0000#16] : List Inputs),
        p.rst = false ∧ p.txReady = false)
      ∧ ∃ t, runSteps 2 { exBusy with edges := [offerInputs 0x3000#16, offerInputs 0x0000#16] } = .next t :=
  ⟨by decide, by decide, ⟨_, rfl⟩⟩

theorem witness_RxHold :
    exItems.rxOut ≠ [] ∧ (∀ p ∈ ([rxInputs (true, true), offerInputs 0x5000#16] : List Inputs),
        p.rst = false ∧ p.outReady = false)
      ∧ ∃ t, runSteps 2 { exItems with edges := [rxInputs (true, true), offerInputs 0x5000#16] } = .next t :=
  ⟨by decide, by decide, ⟨_, rfl⟩⟩

/-- Two states with different RX paths, at edges that differ on the RX line. -/
theorem witness_TxPathIgnoresTheRxPath :
    exReset.cfg = exItems.cfg ∧ exReset.txField = exItems.txField ∧ exReset.txPend = exItems.txPend
      ∧ exReset.txPendEnd = exItems.txPendEnd
      ∧ (offerInputs 0x1000#16).cmdWord = ({ offerInputs 0x1000#16 with rxValid := true } : Inputs).cmdWord
      ∧ (∃ t, clockEdge (offerInputs 0x1000#16) exReset = .next t)
      ∧ ∃ t, clockEdge { offerInputs 0x1000#16 with rxValid := true } exItems = .next t :=
  ⟨by decide, by decide, by decide, by decide, by decide, ⟨_, rfl⟩, ⟨_, rfl⟩⟩

/-- Two states with different TX paths, at edges that differ on the command port. -/
theorem witness_RxPathIgnoresTheTxPath :
    exReset.cfg = exBusy.cfg ∧ exReset.rxBits = exBusy.rxBits ∧ exReset.rxOvf = exBusy.rxOvf
      ∧ exReset.rxOut = exBusy.rxOut
      ∧ (∃ t, clockEdge (rxInputs (true, true)) exReset = .next t)
      ∧ ∃ t, clockEdge { rxInputs (true, true) with cmdValid := true, cmdWord := 0x5000#16 } exBusy = .next t :=
  ⟨by decide, by decide, by decide, by decide, ⟨_, rfl⟩, ⟨_, rfl⟩⟩

theorem witness_BitPositionInAUnit :
    (expand [0x01#8, 0x80#8]).length % 8 = 0 ∧ 15 < (expand [0x01#8, 0x80#8]).length
      ∧ (groups8 (expand [0x01#8, 0x80#8]))[7 / 8]? = some 0x01#8 ∧ (expand [0x01#8, 0x80#8])[7]? = some true := by
  decide

/-- EX's ROM at the edges of its three strings. -/
theorem witness_RomLayout :
    romRead ex 0 = some 0x7B#8 ∧ romRead ex 1 = some 0x53#8 ∧ romRead ex 2 = some 0x41#8
      ∧ romRead ex 3 = some 0x45#8 ∧ romRead ex 4 = some 0x7D#8 ∧ romRead ex 5 = none
      ∧ ex.lS = 2 ∧ ex.lS + ex.lC = 3 ∧ ex.lOvh = 5 := by decide

/-- The 40-bit unit of section 2.4, whose payload is empty: its five items' `flast` flags are 0, 1, 1, 0, 1. -/
theorem witness_ItemsAreTheDecodedFields :
    decodeFrame ex (expand [0x7B#8, 0x53#8, 0x41#8, 0x45#8, 0x7D#8])
        = some ⟨[0x7B#8, 0x53#8], [0x41#8], [], [0x45#8, 0x7D#8]⟩
      ∧ (itemsOf ex (expand [0x7B#8, 0x53#8, 0x41#8, 0x45#8, 0x7D#8])).map Item.flast
        = [false, true, true, false, true]
      ∧ (itemsOf ex (expand [0x7B#8, 0x53#8, 0x41#8, 0x45#8, 0x7D#8]))[4]?
        = some ⟨0x7D#8, .endMarker, true, true⟩ := by decide

/-- R146's conditions at their edges: 35, 32 and 40 bits. -/
theorem witness_UnitOutcomes :
    (List.replicate 35 true).length % 8 ≠ 0 ∧ (List.replicate 32 true).length % 8 = 0
      ∧ (List.replicate 32 true).length < 8 * ex.lOvh ∧ (List.replicate 40 true).length = 8 * ex.lOvh := by decide

/-! Runs on the smallest configuration: the frame of empty fields is the two bytes 0x2C 0x7D. -/

def smallFrame : State := { smallReset with edges := frameSchedule small [] [] }

set_option maxRecDepth 8000 in
theorem witness_TxPathComputesEncode :
    smallFrame.txField = .idle ∧ smallFrame.txPend = [] ∧ noReset 19 smallFrame = true
      ∧ holdsNext (runSteps 19 smallFrame) (fun t =>
          t.trace == smallFrame.trace ++ t.trace && performedFrom .idle (commandsOf t.trace) == txframe [] []
            && (txBeatsOf t.trace).any (fun x => x.2)
            && txBeatsOf t.trace == beats true (expand [0x2C#8, 0x7D#8])) = true := by decide

theorem witness_FrameScheduleSendsTheFrame :
    smallFrame.txField = .idle ∧ smallFrame.txPend = []
      ∧ smallFrame.edges = frameSchedule smallFrame.cfg [] [] ++ [] ∧ (frameSchedule small [] []).length = 19 := by
  decide

theorem witness_TxLineCarriesWhatCommandsQueue :
    noReset 3 smallFrame = true ∧ ∃ t, runSteps 3 smallFrame = .next t := ⟨by decide, ⟨_, rfl⟩⟩

def smallUnit : State := { smallReset with edges := (beats true (encodeFrame small [] [])).map rxInputs }

def smallLongUnit : State := { smallReset with edges := (beats true (encodeFrame small [0x49#8] [])).map rxInputs }

/-- A frame that exactly fills the buffer, and one a byte longer. -/
theorem witness_RxPathComputesDecode :
    smallUnit.rxBits = [] ∧ smallUnit.rxOvf = false ∧ smallUnit.rxOut = [] ∧ noReset 16 smallUnit = true
      ∧ holdsNext (runSteps 16 smallUnit) (fun t =>
          rxBeatsOf t.trace == beats true (encodeFrame small [] []) && t.rxResult == .ok
            && t.trace.getLast? == some (.rxLine true true)) = true
      ∧ small.lOvh + 0 + 1 + 0 ≤ small.nRxBuf
      ∧ noReset 24 smallLongUnit = true
      ∧ holdsNext (runSteps 24 smallLongUnit) (fun t =>
          rxBeatsOf t.trace == beats true (encodeFrame small [0x49#8] []) && t.rxResult == .overflow) = true
      ∧ small.nRxBuf < small.lOvh + 1 + 1 + 0 := by decide

theorem witness_RxPathDeliversTheUnits :
    smallUnit.rxBits = [] ∧ smallUnit.rxOvf = false ∧ noReset 2 smallUnit = true
      ∧ ∃ t, runSteps 2 smallUnit = .next t := ⟨by decide, by decide, by decide, ⟨_, rfl⟩⟩

theorem witness_UnitScheduleIsDecoded :
    encodeFrame small [] [] ≠ [] ∧ smallUnit.rxBits = [] ∧ smallUnit.rxOvf = false ∧ smallUnit.rxOut = []
      ∧ smallUnit.edges = (beats true (encodeFrame small [] [])).map rxInputs ++ [] := by decide

/-- The sender of the joined pair: `txReady` follows the receiver's `rx_ready`, which is 1 throughout. -/
def joinedSender : State :=
  { smallReset with edges := (frameSchedule small [] []).map fun p => { p with txReady := true } }

/-- The receiver: offered what the sender presents, edge by edge. -/
def joinedReceiver : State :=
  { smallReset with
    edges := [{}, {}] ++ (beats false (bits8 0x2C#8)).map rxInputs ++ [{}] ++ (beats true (bits8 0x7D#8)).map rxInputs }

set_option maxRecDepth 8000 in
theorem witness_LoopBackDeliversTheFrame :
    joinedSender.cfg = joinedReceiver.cfg ∧ joinedSender.txField = .idle ∧ joinedSender.txPend = []
      ∧ joinedReceiver.rxBits = [] ∧ joinedReceiver.rxOvf = false ∧ joinedReceiver.rxOut = []
      ∧ joinedFor 19 joinedSender joinedReceiver = true
      ∧ holdsNext (runSteps 19 joinedSender) (fun t =>
          performedFrom .idle (commandsOf t.trace) == txframe [] [] && (txBeatsOf t.trace).any (fun x => x.2)) = true
      ∧ holdsNext (runSteps 19 joinedReceiver) (fun t => (t.rxOut).map Item.byte == [0x2C#8, 0x7D#8]) = true := by
  decide

/-- The serializer empty and with eight bits left. -/
theorem witness_ShiftRegisterRealisesTxPend :
    (⟨0, 0, 0x2C#8, 8⟩ : TxMicro).shn ≤ 8 ∧ (⟨0, 5, 0x00#8, 0⟩ : TxMicro).rl ≤ ex.lOvh
      ∧ (⟨0, 5, 0x00#8, 0⟩ : TxMicro).pending ex ≠ [] ∧ (⟨5, 5, 0x00#8, 0⟩ : TxMicro).pending ex = []
      ∧ 0 < (⟨0, 0, 0x2C#8, 8⟩ : TxMicro).shn := by decide

/-- The accumulator one bit short of a byte; a whole byte kept. -/
theorem witness_BufferRealisesTheRxState :
    (⟨[0x00#8], 0, 0x3D#8, 7⟩ : RxMicro).na ≤ 7
      ∧ (⟨[0x00#8], 0, 0x3D#8, 7⟩ : RxMicro).nb < (⟨[0x00#8], 0, 0x3D#8, 7⟩ : RxMicro).buf.length
      ∧ (⟨[0x7B#8], 1, 0x7B#8, 0⟩ : RxMicro).na = 0
      ∧ (⟨[0x7B#8], 1, 0x7B#8, 0⟩ : RxMicro).nb ≤ (⟨[0x7B#8], 1, 0x7B#8, 0⟩ : RxMicro).buf.length
      ∧ ((⟨[0x00#8], 0, 0x3D#8, 7⟩ : RxMicro).keep true).buf = [0x7B#8] := by decide

end Sys2Proof.Tests
end

section
/-! PROOFS. R15, R65: the TX path and the RX path as machines of their own. Each path is a view of the state with a
transition per transfer that reads nothing outside the view; every transfer of the block moves the view by that
transition, so an edge does too. -/

namespace Sys2Proof.Machine

/-! ### Transfers seen through a view of the state -/

/-- A view that every single transfer moves by `next` is moved by a list of transfers by folding `next`. -/
theorem fireAll_view {α : Type} {view : State → α} {next : α → Transfer → α}
    (hfire : ∀ (x : Transfer) (s t : State), x.fire s = .next t → view t = next (view s) x)
    {ts : List Transfer} {s t : State} (h : fireAll ts s = .next t) : view t = ts.foldl next (view s) := by
  induction ts generalizing s with
  | nil => cases h; rfl
  | cons x xs ih =>
    obtain ⟨s', hx, _⟩ := fire_next x s
    rw [fireAll_cons, hx, andThen_next] at h
    rw [List.foldl_cons, ← hfire x s s' hx]
    exact ih h

/-! ### The TX path -/

/-- The constants and the TX state: `tx_field`, `tx_pend`, `tx_pend_end` (R23 to R25). -/
structure TxPath where
  cfg : Config
  field : TxField
  pend : List Bit
  pendEnd : Bool

/-- The TX path of a state. -/
def State.txPath (s : State) : TxPath := ⟨s.cfg, s.txField, s.txPend, s.txPendEnd⟩

/-- An offered instruction queues its bytes when no bit is pending and R125's table has a row for it. -/
def TxPath.offer (v : TxPath) (i : Instr) : TxPath :=
  match nextTxField v.field i with
  | some f => if v.pend = [] then ⟨v.cfg, f, expand (queuedBytes v.cfg i), decide (i = .txend)⟩ else v
  | none => v

/-- What a transfer does to the TX path; RX line and output transfers do nothing to it. -/
def TxPath.next (v : TxPath) : Transfer → TxPath
  | .reset => ⟨v.cfg, .idle, [], false⟩
  | .command w =>
    match decodeCmd w with
    | .ok i => v.offer i
    | .error _ => v
  | .txLine _ _ => { v with pend := v.pend.tail, pendEnd := if v.pend.length = 1 then false else v.pendEnd }
  | .rxLine _ _ => v
  | .output _ => v

theorem TxPath.offer_of_no_row {v : TxPath} {i : Instr} (h : nextTxField v.field i = none) : v.offer i = v := by
  simp [TxPath.offer, h]

theorem TxPath.offer_of_pending {v : TxPath} (i : Instr) (h : v.pend ≠ []) : v.offer i = v := by
  unfold TxPath.offer
  split
  · exact if_neg h
  · rfl

@[simp] theorem txPath_record (x : Transfer) (s : State) : (record x s).txPath = s.txPath := rfl

@[simp] theorem txPath_raiseCmdError (c : CmdCause) (w : Word) (s : State) :
    (raiseCmdError c w s).txPath = s.txPath := by
  simp [State.txPath]

theorem exec_txPath {i : Instr} {s t : State} (h : exec i s = .next t) : t.txPath = s.txPath.offer i := by
  obtain ⟨rfl, rfl⟩ | ⟨rfl, rfl⟩ | ⟨-, hp, rfl⟩ | ⟨f, -, hp, hf, rfl⟩ | ⟨-, -, hf, rfl⟩ := exec_cases h
  · exact (TxPath.offer_of_no_row (by simp [nextTxField])).symm
  · exact (TxPath.offer_of_no_row (by simp [nextTxField])).symm
  · exact (TxPath.offer_of_pending i hp).symm
  · simp [State.txPath, TxPath.offer, hp, hf]
  · rw [txPath_raiseCmdError, TxPath.offer_of_no_row hf]

theorem performWord_txPath {w : Word} {s t : State} (h : performWord w s = .next t) :
    t.txPath = s.txPath.next (.command w) := by
  unfold performWord at h
  split at h
  case h_1 i hi => rw [exec_txPath h]; simp only [TxPath.next, hi]
  case h_2 e he => cases h; simp only [txPath_raiseCmdError, TxPath.next, he]

theorem fire_txPath (x : Transfer) (s t : State) (h : x.fire s = .next t) : t.txPath = s.txPath.next x := by
  cases x with
  | command w => exact performWord_txPath (s := record _ s) h
  | reset => cases h; rfl
  | txLine b l => cases h; rfl
  | rxLine b l => cases h; simp [State.txPath, TxPath.next]
  | output i => cases h; rfl

theorem foldl_txPath_rxTransfer (p : Inputs) (s : State) (v : TxPath) :
    (rxTransfer p s).foldl TxPath.next v = v := by
  unfold rxTransfer
  split <;> rfl

theorem foldl_txPath_outTransfer (p : Inputs) (s : State) (v : TxPath) :
    (outTransfer p s).foldl TxPath.next v = v := by
  unfold outTransfer
  split
  · cases s.rxOut <;> rfl
  · rfl

/-- The TX path after an edge: only reset, the command transfer and the TX line transfer move it. -/
theorem clockEdge_txPath {p : Inputs} {s t : State} (h : clockEdge p s = .next t) :
    t.txPath = ((if p.rst then [Transfer.reset] else []) ++ commandTransfer p s
      ++ txTransfer p s).foldl TxPath.next s.txPath := by
  rw [fireAll_view fire_txPath h, edgeTransfers, List.foldl_append, List.foldl_append,
    foldl_txPath_rxTransfer, foldl_txPath_outTransfer]

/-! ### The RX path -/

/-- The constants and the RX state but for `rx_result`: `rx_bits`, `rx_ovf`, `rx_out` (R26 to R28). -/
structure RxPath where
  cfg : Config
  bits : List Bit
  ovf : Bool
  out : List Item

/-- The RX path of a state. -/
def State.rxPath (s : State) : RxPath := ⟨s.cfg, s.rxBits, s.rxOvf, s.rxOut⟩

/-- An accepted bit is kept or dropped; with `rx_last` = 1 the unit is decoded and the buffer emptied (R140, R145). -/
def RxPath.accept (v : RxPath) (b : Bit) (l : Bool) : RxPath :=
  let kept := Memory.write v.cfg v.bits b
  let ovf := v.ovf || kept.2
  if l then ⟨v.cfg, [], false, (unitDecode v.cfg kept.1 ovf).2⟩ else ⟨v.cfg, kept.1, ovf, v.out⟩

/-- What a transfer does to the RX path; command and TX line transfers do nothing to it. -/
def RxPath.next (v : RxPath) : Transfer → RxPath
  | .reset => ⟨v.cfg, [], false, []⟩
  | .command _ => v
  | .txLine _ _ => v
  | .rxLine b l => v.accept b l
  | .output _ => { v with out := v.out.tail }

theorem rxPath_rxLineTransfer (b : Bit) (l : Bool) (s : State) :
    (rxLineTransfer b l s).rxPath = s.rxPath.accept b l := by
  cases l <;> rfl

theorem performWord_rxPath {w : Word} {s t : State} (h : performWord w s = .next t) : t.rxPath = s.rxPath := by
  obtain ⟨t', ht', hcfg, hbits, hovf, hout, -⟩ := performWord_next w s
  cases h.symm.trans ht'
  simp [State.rxPath, hcfg, hbits, hovf, hout]

theorem fire_rxPath (x : Transfer) (s t : State) (h : x.fire s = .next t) : t.rxPath = s.rxPath.next x := by
  cases x with
  | command w => exact performWord_rxPath (s := record _ s) h
  | reset => cases h; rfl
  | txLine b l => cases h; rfl
  | rxLine b l => cases h; exact rxPath_rxLineTransfer b l _
  | output i => cases h; rfl

theorem foldl_rxPath_commandTransfer (p : Inputs) (s : State) (v : RxPath) :
    (commandTransfer p s).foldl RxPath.next v = v := by
  unfold commandTransfer
  split <;> rfl

theorem foldl_rxPath_txTransfer (p : Inputs) (s : State) (v : RxPath) :
    (txTransfer p s).foldl RxPath.next v = v := by
  unfold txTransfer
  split <;> rfl

/-- The RX path after an edge: only reset, the RX line transfer and the output transfer move it. -/
theorem clockEdge_rxPath {p : Inputs} {s t : State} (h : clockEdge p s = .next t) :
    t.rxPath = ((if p.rst then [Transfer.reset] else []) ++ rxTransfer p s
      ++ outTransfer p s).foldl RxPath.next s.rxPath := by
  rw [fireAll_view fire_rxPath h, edgeTransfers]
  simp only [List.foldl_append, foldl_rxPath_commandTransfer, foldl_rxPath_txTransfer]

/-! ### Neither path reads the other -/

/-- Settles O41: both edges move equal TX paths by the same transfers. -/
theorem txPathIgnoresTheRxPath : Obligations.TxPathIgnoresTheRxPath := by
  intro s₁ s₂ t₁ t₂ p₁ p₂ hcfg hfield hpend hpendEnd hrst hvalid hword hready h₁ h₂
  have hpath : s₁.txPath = s₂.txPath := by simp only [State.txPath, hcfg, hfield, hpend, hpendEnd]
  have hcmd : commandTransfer p₁ s₁ = commandTransfer p₂ s₂ := by
    rw [commandTransfer, outputs, cmdReady, hrst, hvalid, hword, hpend]; rfl
  have htx : txTransfer p₁ s₁ = txTransfer p₂ s₂ := by
    rw [txTransfer, outputs, txValid, txBit, txLast, hrst, hready, hpend, hpendEnd]; rfl
  have hnext : t₁.txPath = t₂.txPath := by
    rw [clockEdge_txPath h₁, clockEdge_txPath h₂, hpath, hrst, hcmd, htx]
  exact ⟨congrArg TxPath.field hnext, congrArg TxPath.pend hnext, congrArg TxPath.pendEnd hnext, hcmd, htx⟩

/-- Settles O42: both edges move equal RX paths by the same transfers. -/
theorem rxPathIgnoresTheTxPath : Obligations.RxPathIgnoresTheTxPath := by
  intro s₁ s₂ t₁ t₂ p₁ p₂ hcfg hbits hovf hout hrst hvalid hbit hlast hready h₁ h₂
  have hpath : s₁.rxPath = s₂.rxPath := by simp only [State.rxPath, hcfg, hbits, hovf, hout]
  have hrx : rxTransfer p₁ s₁ = rxTransfer p₂ s₂ := by
    rw [rxTransfer, outputs, rxReady, hrst, hvalid, hbit, hlast, hout]; rfl
  have houtput : outTransfer p₁ s₁ = outTransfer p₂ s₂ := by
    rw [outTransfer, outputs, outValid, hrst, hready, hout]; rfl
  have hnext : t₁.rxPath = t₂.rxPath := by
    rw [clockEdge_rxPath h₁, clockEdge_rxPath h₂, hpath, hrst, hrx, houtput]
  exact ⟨congrArg RxPath.bits hnext, congrArg RxPath.ovf hnext, congrArg RxPath.out hnext, hrx, houtput⟩

end Sys2Proof.Machine
end

section
/-! PROOFS. The transfers of one edge (R37 to R43): when each happens, what the earlier ones leave of the later ones'
conditions, and the edge as transfers each enabled in turn. -/

namespace Sys2Proof.Machine

/-! ### Command words -/

/-- R78: an instruction is decoded from its own word only. -/
theorem eq_encode_of_decodeCmd {w : Word} {i : Instr} (h : decodeCmd w = .ok i) : w = encode i := by
  unfold decodeCmd at h
  split_ifs at h with h0 h1 hmask h3 h4 h5 <;> cases h
  · exact h0
  · exact h1
  · have hhigh : w >>> 8 <<< 8 = 0x2000#16 := by rw [BitVec.shiftLeft_ushiftRight, ← hmask]; rfl
    have hpage : w.toNat / 256 * 256 % 65536 = 0x2000 := by
      simpa [Nat.shiftLeft_eq, Nat.shiftRight_eq_div_pow] using congrArg BitVec.toNat hhigh
    have hdata : (dataField w).toNat = w.toNat % 256 := by simp [dataField]
    simp only [encode]
    bv_omega
  · exact h3
  · exact h4
  · exact h5

/-- R78, R79: an illegal word is recorded as itself and is not TX-class. -/
theorem decodeCmd_error {w : Word} {e : IllegalWord} (h : decodeCmd w = .error e) :
    e.word = w ∧ isTX w = false := by
  unfold decodeCmd at h
  split_ifs at h with h0 h1 h2 h3 h4 h5
  cases h
  constructor
  · unfold illegalKind
    split_ifs <;> rfl
  · simp [isTX, h1, h2, h3, h4]

/-- R37: an illegal word is never held. -/
theorem cmdReady_of_illegal {w : Word} {e : IllegalWord} (s : State) (h : decodeCmd w = .error e) :
    cmdReady w s = true := by
  simp [cmdReady, (decodeCmd_error h).2]

theorem performWord_ok {w : Word} {i : Instr} (s : State) (h : decodeCmd w = .ok i) :
    performWord w s = exec i s := by
  simp only [performWord, h]

theorem performWord_illegal {w : Word} {e : IllegalWord} (s : State) (h : decodeCmd w = .error e) :
    performWord w s = .next (raiseCmdError .illegal w s) := by
  simp only [performWord, h, execIllegal, (decodeCmd_error h).1]

/-! ### When a transfer happens at an edge -/

theorem commandTransfer_of_accepted {p : Inputs} {s : State} (hr : p.rst = false) (hv : p.cmdValid = true)
    (hc : cmdReady p.cmdWord s = true) : commandTransfer p s = [.command p.cmdWord] := by
  simp [commandTransfer, outputs, hr, hv, hc]

theorem commandTransfer_of_held {p : Inputs} {s : State} (hc : cmdReady p.cmdWord s = false) :
    commandTransfer p s = [] := by
  simp [commandTransfer, outputs, hc]

theorem txTransfer_of_idle (p : Inputs) {s : State} (h : s.txPend = []) : txTransfer p s = [] := by
  simp [txTransfer, outputs, txValid, h]

theorem txTransfer_of_not_ready {p : Inputs} (s : State) (h : p.txReady = false) : txTransfer p s = [] := by
  simp [txTransfer, h]

theorem txTransfer_cases (p : Inputs) (s : State) :
    txTransfer p s = [] ∨ txTransfer p s = [.txLine (outputs p s).txBit (outputs p s).txLast] := by
  unfold txTransfer
  split
  · exact .inr rfl
  · exact .inl rfl

theorem rxTransfer_of_items (p : Inputs) {s : State} (h : s.rxOut ≠ []) : rxTransfer p s = [] := by
  simp [rxTransfer, outputs, rxReady, h]

theorem rxTransfer_of_not_valid {p : Inputs} (s : State) (h : p.rxValid = false) : rxTransfer p s = [] := by
  simp [rxTransfer, h]

theorem rxTransfer_of_accepted {p : Inputs} {s : State} (hr : p.rst = false) (hv : p.rxValid = true)
    (ho : s.rxOut = []) : rxTransfer p s = [.rxLine p.rxBit p.rxLast] := by
  simp [rxTransfer, outputs, rxReady, hr, hv, ho]

theorem outTransfer_of_no_items (p : Inputs) {s : State} (h : s.rxOut = []) : outTransfer p s = [] := by
  simp [outTransfer, outputs, outValid, h]

theorem outTransfer_of_not_ready {p : Inputs} (s : State) (h : p.outReady = false) : outTransfer p s = [] := by
  simp [outTransfer, h]

/-! ### What a port's transfer depends on -/

theorem txTransfer_congr (p : Inputs) {s s' : State} (h : s'.txPath = s.txPath) :
    txTransfer p s' = txTransfer p s := by
  have hpend : s'.txPend = s.txPend := congrArg TxPath.pend h
  have hend : s'.txPendEnd = s.txPendEnd := congrArg TxPath.pendEnd h
  rw [txTransfer, outputs, txValid, txBit, txLast, hpend, hend]
  rfl

theorem rxTransfer_congr (p : Inputs) {s s' : State} (h : s'.rxPath = s.rxPath) :
    rxTransfer p s' = rxTransfer p s := by
  have hout : s'.rxOut = s.rxOut := congrArg RxPath.out h
  rw [rxTransfer, outputs, rxReady, hout]
  rfl

theorem outTransfer_congr (p : Inputs) {s s' : State} (h : s'.rxPath = s.rxPath) :
    outTransfer p s' = outTransfer p s := by
  have hout : s'.rxOut = s.rxOut := congrArg RxPath.out h
  rw [outTransfer, outputs, outValid, hout]
  rfl

/-! ### What a port's transfer leaves unchanged -/

theorem TxPath.next_command_ok {w : Word} {i : Instr} (v : TxPath) (h : decodeCmd w = .ok i) :
    v.next (.command w) = v.offer i := by
  simp only [TxPath.next, h]

theorem TxPath.next_command_illegal {w : Word} {e : IllegalWord} (v : TxPath) (h : decodeCmd w = .error e) :
    v.next (.command w) = v := by
  simp only [TxPath.next, h]

/-- R161, R196: with bits pending no accepted word moves the TX path. -/
theorem TxPath.next_command_of_pending {v : TxPath} (w : Word) (h : v.pend ≠ []) : v.next (.command w) = v := by
  cases hw : decodeCmd w with
  | ok i => rw [TxPath.next_command_ok v hw, TxPath.offer_of_pending i h]
  | error e => exact TxPath.next_command_illegal v hw

theorem txPath_after_command {p : Inputs} {s t : State} (hp : s.txPend ≠ [])
    (h : fireAll (commandTransfer p s) s = .next t) : t.txPath = s.txPath := by
  rw [fireAll_view fire_txPath h]
  unfold commandTransfer
  split
  · exact TxPath.next_command_of_pending _ hp
  · rfl

theorem rxPath_after_command {p : Inputs} {s s' t : State}
    (h : fireAll (commandTransfer p s) s' = .next t) : t.rxPath = s'.rxPath := by
  rw [fireAll_view fire_rxPath h, foldl_rxPath_commandTransfer]

theorem rxPath_after_tx {p : Inputs} {s s' t : State}
    (h : fireAll (txTransfer p s) s' = .next t) : t.rxPath = s'.rxPath := by
  rw [fireAll_view fire_rxPath h, foldl_rxPath_txTransfer]

/-! ### Transfers enabled in turn -/

theorem enabledInTurn_singleton {x : Transfer} {s : State} (h : x.enabled s = true) : EnabledInTurn [x] s :=
  ⟨h, fun _ _ => trivial⟩

theorem EnabledInTurn.append {ts us : List Transfer} {s : State} (hts : EnabledInTurn ts s)
    (hus : ∀ t, fireAll ts s = .next t → EnabledInTurn us t) : EnabledInTurn (ts ++ us) s := by
  induction ts generalizing s with
  | nil => exact hus s rfl
  | cons x xs ih =>
    obtain ⟨hx, hxs⟩ := hts
    exact ⟨hx, fun s' hs' => ih (hxs s' hs') fun t ht => hus t (by rw [fireAll_cons, hs', andThen_next, ht])⟩

theorem commandTransfer_enabled (p : Inputs) (s : State) : EnabledInTurn (commandTransfer p s) s := by
  unfold commandTransfer
  split
  next h =>
    simp only [outputs, Bool.and_eq_true] at h
    exact enabledInTurn_singleton h.2.2
  next => trivial

theorem txTransfer_enabled (p : Inputs) (s : State) : EnabledInTurn (txTransfer p s) s := by
  unfold txTransfer
  split
  next h =>
    simp only [outputs, Bool.and_eq_true] at h
    obtain ⟨⟨hrst, hvalid⟩, -⟩ := h
    exact enabledInTurn_singleton (by simp [Transfer.enabled, outputs, hrst, hvalid])
  next => trivial

theorem rxTransfer_enabled (p : Inputs) (s : State) : EnabledInTurn (rxTransfer p s) s := by
  unfold rxTransfer
  split
  next h =>
    simp only [outputs, Bool.and_eq_true] at h
    exact enabledInTurn_singleton h.2.2
  next => trivial

theorem outTransfer_enabled (p : Inputs) (s : State) : EnabledInTurn (outTransfer p s) s := by
  unfold outTransfer
  split
  · cases hout : s.rxOut with
    | nil => trivial
    | cons i is => exact enabledInTurn_singleton (by simp [Transfer.enabled, hout])
  · trivial

/-- R42: no RX line transfer and no output transfer meet at one edge. -/
theorem rxTransfer_or_outTransfer_nil (p : Inputs) (s : State) : rxTransfer p s = [] ∨ outTransfer p s = [] := by
  by_cases h : s.rxOut = []
  · exact .inr (outTransfer_of_no_items p h)
  · exact .inl (rxTransfer_of_items p h)

/-- R43: the transfers of an edge, decided at its start, are each still enabled when their turn comes. A word
accepted with bits pending leaves the TX path, no command or TX line transfer moves the RX path, and an RX line
transfer leaves no output transfer behind it. -/
theorem edgeTransfers_enabled (p : Inputs) (s : State) : EnabledInTurn (edgeTransfers p s) s := by
  cases hrst : p.rst with
  | true =>
    rw [edgeTransfers_reset s hrst]
    exact enabledInTurn_singleton rfl
  | false =>
    rw [edgeTransfers_run s hrst, List.append_assoc, List.append_assoc]
    refine (commandTransfer_enabled p s).append fun s₁ h₁ => EnabledInTurn.append ?tx fun s₂ h₂ =>
      EnabledInTurn.append ?rx fun s₃ h₃ => ?out
    case tx =>
      by_cases hp : s.txPend = []
      · rw [txTransfer_of_idle p hp]
        trivial
      · rw [← txTransfer_congr p (txPath_after_command hp h₁)]
        exact txTransfer_enabled p s₁
    all_goals have hrx : s₂.rxPath = s.rxPath := (rxPath_after_tx h₂).trans (rxPath_after_command h₁)
    case rx =>
      rw [← rxTransfer_congr p hrx]
      exact rxTransfer_enabled p s₂
    case out =>
      obtain hnil | hnil := rxTransfer_or_outTransfer_nil p s
      · rw [hnil, fireAll_nil] at h₃
        cases h₃
        rw [← outTransfer_congr p hrx]
        exact outTransfer_enabled p s₂
      · rw [hnil]
        trivial

/-! ### One transfer as an edge -/

/-- R16: the inputs of an edge at which only the agents of one transfer act. -/
def Transfer.inputs : Transfer → Inputs
  | .reset => { rst := true }
  | .command w => offerInputs w
  | .txLine _ _ => sinkInputs
  | .rxLine b l => rxInputs (b, l)
  | .output _ => drainInputs

theorem edgeTransfers_inputs {x : Transfer} {s : State} (h : x.enabled s = true) :
    edgeTransfers x.inputs s = [x] := by
  cases x with
  | reset => exact edgeTransfers_reset s rfl
  | command w =>
    have hcmd : commandTransfer (offerInputs w) s = [.command w] := commandTransfer_of_accepted rfl rfl h
    rw [Transfer.inputs, edgeTransfers_run s rfl, hcmd, txTransfer_of_not_ready s rfl,
      rxTransfer_of_not_valid s rfl, outTransfer_of_not_ready s rfl]
    rfl
  | txLine b l =>
    simp only [Transfer.enabled, Bool.and_eq_true, beq_iff_eq] at h
    obtain ⟨⟨hvalid, rfl⟩, rfl⟩ := h
    rw [edgeTransfers_run s rfl, rxTransfer_of_not_valid s rfl, outTransfer_of_not_ready s rfl]
    simp [Transfer.inputs, sinkInputs, commandTransfer, txTransfer, outputs, hvalid]
  | rxLine b l =>
    rw [edgeTransfers_run s rfl, rxTransfer_of_accepted rfl rfl (by simpa [Transfer.enabled, rxReady] using h),
      txTransfer_of_not_ready s rfl, outTransfer_of_not_ready s rfl]
    rfl
  | output i =>
    have hhead : s.rxOut.head? = some i := by simpa [Transfer.enabled] using h
    have hne : s.rxOut ≠ [] := by rintro hnil; simp [hnil] at hhead
    rw [edgeTransfers_run s rfl, txTransfer_of_not_ready s rfl, rxTransfer_of_not_valid s rfl]
    simp [Transfer.inputs, drainInputs, commandTransfer, outTransfer, outputs, outValid, hhead, hne]

theorem clockEdge_of_edgeTransfers {p : Inputs} {x : Transfer} {s : State} (h : edgeTransfers p s = [x]) :
    clockEdge p s = x.fire s := by
  obtain ⟨t, ht, -⟩ := fire_next x s
  rw [clockEdge, h, fireAll_cons, ht]
  rfl

/-- Settles O32: the transfers of an edge are enabled in turn, and an enabled transfer is the edge of its own
inputs. -/
theorem interleavingEqualsTheEdge : Obligations.InterleavingEqualsTheEdge := by
  refine ⟨fun p s hrst => ?_, fun p s hrst => ?_, fun x s hx => ⟨x.inputs, ?_⟩⟩
  · rw [← edgeTransfers_run s hrst]
    exact ⟨rfl, edgeTransfers_enabled p s⟩
  · rw [← edgeTransfers_reset s hrst]
    exact ⟨rfl, edgeTransfers_enabled p s⟩
  · exact clockEdge_of_edgeTransfers (edgeTransfers_inputs hx)

/-- Settles O31: a TX-class word needs an idle TX line and the TX line transfer a pending bit; the RX line needs no
item pending and the output one; and the unit's end comes after `CLRSTAT` in the order of R42. -/
theorem sameEdgeTransfers : Obligations.SameEdgeTransfers := by
  refine fun s p hrst => ⟨fun hTX => ?_, rxTransfer_or_outTransfer_nil p s, fun hcmd hword hrx hlast hout => ?_⟩
  · by_cases hp : s.txPend = []
    · exact .inr (txTransfer_of_idle p hp)
    · exact .inl (commandTransfer_of_held ((cmdReady_eq_false _ _).mpr ⟨hTX, hp⟩))
  · have hready : cmdReady p.cmdWord s = true := by rw [hword]; rfl
    rw [clockEdge, edgeTransfers_run s hrst, commandTransfer_of_accepted hrst hcmd hready,
      rxTransfer_of_accepted hrst hrx hout, outTransfer_of_no_items p hout, hword, hlast]
    obtain htx | htx := txTransfer_cases p s
    all_goals
      rw [htx]
      exact ⟨_, rfl, by simp, by simp, by simp, by simp⟩

/-! ### The accepted word of a step -/

theorem step_eq_clockEdge {s : State} {p : Inputs} {rest : List Inputs} (h : s.edges = p :: rest) :
    step s = clockEdge p { s with edges := rest } := by
  simp [step, nextEdge, h]

theorem andThen_fireAll_nil (r : Result) : andThen r (fireAll []) = r := by
  cases r <;> rfl

/-- R42: an accepted word is performed first, in the noted state, and the edge's other transfers follow. -/
theorem step_of_accepted {s : State} {p : Inputs} {rest : List Inputs} (hedges : s.edges = p :: rest)
    (hrst : p.rst = false) (hcmd : p.cmdValid = true) (hready : cmdReady p.cmdWord s = true) :
    step s = andThen (performWord p.cmdWord (record (.command p.cmdWord) { s with edges := rest }))
      (fireAll (txTransfer p s ++ rxTransfer p s ++ outTransfer p s)) := by
  rw [step_of_edge hedges, edgeTransfers_run s hrst, commandTransfer_of_accepted hrst hcmd hready,
    List.append_assoc, List.append_assoc, ← List.append_assoc (txTransfer p s)]
  rfl

theorem otherTransfers_of_offerInputs {p : Inputs} {w : Word} (s : State) (h : p = offerInputs w) :
    txTransfer p s ++ rxTransfer p s ++ outTransfer p s = [] := by
  subst h
  rw [txTransfer_of_not_ready s rfl, rxTransfer_of_not_valid s rfl, outTransfer_of_not_ready s rfl]
  rfl

/-- Settles O19: the accepted word decides what `performWord` does, and with the host alone nothing follows it. -/
theorem stepRunsTheAcceptedCommand : Obligations.StepRunsTheAcceptedCommand := by
  refine fun s p rest hedges hrst hcmd => ⟨fun i hready hi => ?_, fun e he => ?_⟩
  · have hstep := step_of_accepted hedges hrst hcmd hready
    rw [performWord_ok _ hi] at hstep
    refine ⟨hstep, fun hp => ?_⟩
    rw [hstep, otherTransfers_of_offerInputs s hp, andThen_fireAll_nil]
  · have hstep := step_of_accepted hedges hrst hcmd (cmdReady_of_illegal s he)
    rw [performWord_illegal _ he, andThen_next] at hstep
    refine ⟨hstep, fun hp => ?_⟩
    rw [hstep, otherTransfers_of_offerInputs s hp, fireAll_nil]

end Sys2Proof.Machine
end

section
/-! PROOFS. What every step keeps: a property kept by every enabled transfer is kept by every step; the invariant of
R45, the constants, and the moves of the field pointer. -/

namespace Sys2Proof.Machine

/-! ### From one transfer to one step -/

/-- A property that every transfer keeps where it is enabled is kept by transfers enabled in turn. -/
theorem fireAll_keeps {P : State → Prop}
    (hfire : ∀ (x : Transfer) (s t : State), x.enabled s = true → x.fire s = .next t → P s → P t)
    {ts : List Transfer} {s t : State} (hts : EnabledInTurn ts s) (h : fireAll ts s = .next t) (hs : P s) : P t := by
  induction ts generalizing s with
  | nil => cases h; exact hs
  | cons x xs ih =>
    obtain ⟨hx, hxs⟩ := hts
    obtain ⟨s', hs', -⟩ := fire_next x s
    rw [fireAll_cons, hs', andThen_next] at h
    exact ih (hxs s' hs') h (hfire x s s' hx hs' hs)

/-- A property that does not read the coming edges, and that every transfer keeps where it is enabled, is kept by
every step. -/
theorem step_keeps {P : State → Prop} (hedges : ∀ (s : State) (es : List Inputs), P s → P { s with edges := es })
    (hfire : ∀ (x : Transfer) (s t : State), x.enabled s = true → x.fire s = .next t → P s → P t)
    {s t : State} (h : step s = .next t) (hs : P s) : P t := by
  cases hes : s.edges with
  | nil =>
    rw [step_of_no_edge hes] at h
    cases h
    exact hs
  | cons p rest =>
    rw [step_of_edge hes] at h
    exact fireAll_keeps hfire (edgeTransfers_enabled p { s with edges := rest }) h (hedges s rest hs)

/-! ### The invariant of R45, transfer by transfer -/

/-- The invariant does not read the environment's lists. -/
theorem Inv.withEnvironment {s : State} (h : Inv s) (es : List Inputs) (ts : List Transfer) :
    Inv { s with edges := es, trace := ts } :=
  ⟨h.endPending, h.pendBound, h.itemsPending, h.overflowFull, h.bufferBound, h.noError, h.errorRecorded⟩

theorem inv_resetBlock (s : State) : Inv (resetBlock s) where
  endPending := by simp
  pendBound := by simp
  itemsPending := by simp
  overflowFull := by simp
  bufferBound := by simp [Memory.wf]
  noError := by simp
  errorRecorded := by simp

theorem Inv.txLine {s : State} (h : Inv s) : Inv (txLineTransfer s) where
  endPending := by
    simp only [txLineTransfer_txPendEnd, txLineTransfer_txField, txLineTransfer_txPend]
    split
    · nofun
    · intro hend
      obtain ⟨hfield, hpend⟩ := h.endPending hend
      refine ⟨hfield, List.ne_nil_of_length_pos ?_⟩
      have := List.length_pos_iff.mpr hpend
      rw [List.length_tail]
      omega
  pendBound := by
    have := h.pendBound
    rw [txLineTransfer_txPend, List.length_tail, txLineTransfer_cfg]
    omega
  itemsPending := h.itemsPending
  overflowFull := h.overflowFull
  bufferBound := h.bufferBound
  noError := h.noError
  errorRecorded := h.errorRecorded

/-- R144: only a unit whose outcome is OK has items. -/
theorem unitDecode_ok_of_items {c : Config} {bits : List Bit} {ovf : Bool} (h : (unitDecode c bits ovf).2 ≠ []) :
    (unitDecode c bits ovf).1 = .ok := by
  unfold unitDecode at h ⊢
  split_ifs at h ⊢
  · exact absurd rfl h
  · exact absurd rfl h
  · exact absurd rfl h
  · rfl

/-- R140, R143: the RX line accepts a bit only while no item is pending, and drops one only from a full buffer. -/
theorem Inv.rxLine {s : State} (h : Inv s) (hout : s.rxOut = []) (b : Bit) (l : Bool) :
    Inv (rxLineTransfer b l s) where
  endPending := by simpa using h.endPending
  pendBound := by simpa using h.pendBound
  itemsPending := by
    cases l with
    | false => simp [hout]
    | true => exact fun hitems => ⟨rfl, rfl, .inl (unitDecode_ok_of_items hitems)⟩
  overflowFull := by
    have hfull := h.overflowFull
    have hbound : s.rxBits.length ≤ 8 * s.cfg.nRxBuf := by simpa [Memory.wf] using h.bufferBound
    cases l with
    | true => simp
    | false =>
      obtain ⟨hroom, hw⟩ | ⟨hno, hw⟩ := Memory.write_cases s.cfg s.rxBits b
      · simp only [rxLineTransfer_rxOvf, hw, Bool.or_false]
        exact fun hovf => absurd (hfull (by simpa using hovf)) (Nat.ne_of_lt hroom)
      · simp only [rxLineTransfer_rxBits, rxLineTransfer_cfg, hw]
        exact fun _ => Nat.le_antisymm hbound hno
  bufferBound := by
    cases l with
    | true => simp [Memory.wf]
    | false => simpa using Memory.write_wf s.cfg s.rxBits b h.bufferBound
  noError := by simpa using h.noError
  errorRecorded := by simpa using h.errorRecorded

theorem Inv.output {s : State} (h : Inv s) : Inv (outputTransfer s) where
  endPending := h.endPending
  pendBound := h.pendBound
  itemsPending := fun hitems => h.itemsPending (by rintro hnil; simp [hnil] at hitems)
  overflowFull := h.overflowFull
  bufferBound := h.bufferBound
  noError := h.noError
  errorRecorded := h.errorRecorded

/-! ### The invariant, command by command -/

theorem Inv.queueTx {s : State} (h : Inv s) {field : TxField} {bytes : List Byte} {isEnd : Bool}
    (hlen : bytes.length ≤ max (s.cfg.lS + s.cfg.lC) (max 1 s.cfg.lE))
    (hend : isEnd = true → field = .idle ∧ bytes ≠ []) : Inv (queueTx field bytes isEnd s) where
  endPending := by simpa using hend
  pendBound := by rw [queueTx_txPend, length_expand, queueTx_cfg]; omega
  itemsPending := h.itemsPending
  overflowFull := h.overflowFull
  bufferBound := h.bufferBound
  noError := h.noError
  errorRecorded := h.errorRecorded

/-- R171: the first error is recorded with its cause and its word, a later one changes nothing. -/
theorem Inv.raiseCmdError {s : State} (h : Inv s) {cause : CmdCause} {w : Word}
    (hcause : cause = .illegal ∨ cause = .sequence) (hw : w ≠ 0x0000#16) : Inv (raiseCmdError cause w s) where
  endPending := by simpa using h.endPending
  pendBound := by simpa using h.pendBound
  itemsPending := by simpa using h.itemsPending
  overflowFull := by simpa using h.overflowFull
  bufferBound := by simpa using h.bufferBound
  noError := by simp
  errorRecorded := by
    simp only [raiseCmdError_cmdCause, raiseCmdError_errWord]
    split
    next herr => exact fun _ => h.errorRecorded herr
    next => exact fun _ => ⟨hcause, hw⟩

theorem Inv.clearStatus {s : State} (h : Inv s) :
    Inv { s with cmdErr := false, cmdCause := .none, errWord := 0x0000#16, rxResult := .none } where
  endPending := h.endPending
  pendBound := h.pendBound
  itemsPending := fun hitems =>
    have ⟨hbits, hovf, _⟩ := h.itemsPending hitems
    ⟨hbits, hovf, .inr rfl⟩
  overflowFull := h.overflowFull
  bufferBound := h.bufferBound
  noError := fun _ => ⟨rfl, rfl⟩
  errorRecorded := nofun

/-- R24: no command queues more bytes than the longest of the markers, the END marker and one character. -/
theorem length_queuedBytes_le (c : Config) (i : Instr) :
    (queuedBytes c i).length ≤ max (c.lS + c.lC) (max 1 c.lE) := by
  cases i with
  | txbegin => simp [queuedBytes, Config.lS, Config.lC]
  | txend => simp [queuedBytes, Config.lE]
  | txchar d | txsep | nop | clrstat => simp [queuedBytes]

/-- R124, R125: the command that queues the END marker closes the frame. -/
theorem nextTxField_txend {f f' : TxField} (h : nextTxField f .txend = some f') : f' = .idle := by
  cases f with
  | text => cases h; rfl
  | idle | country => cases h

theorem encode_ne_zero {i : Instr} (h : i.txClass = true) : encode i ≠ 0x0000#16 := by
  cases i with
  | nop | clrstat => cases h
  | txbegin | txsep | txend => decide
  | txchar d => simp only [encode]; bv_omega

theorem Inv.exec {i : Instr} {s t : State} (h : exec i s = .next t) (hs : Inv s) : Inv t := by
  obtain ⟨rfl, rfl⟩ | ⟨rfl, rfl⟩ | ⟨-, -, rfl⟩ | ⟨f, -, -, hf, rfl⟩ | ⟨htx, -, -, rfl⟩ := exec_cases h
  · exact hs
  · exact hs.clearStatus
  · exact hs
  · refine hs.queueTx (length_queuedBytes_le s.cfg i) fun hi => ?_
    obtain rfl : i = .txend := of_decide_eq_true hi
    exact ⟨nextTxField_txend hf, endStr_ne_nil s.cfg⟩
  · exact hs.raiseCmdError (.inr rfl) (encode_ne_zero htx)

theorem Inv.performWord {w : Word} {s t : State} (h : performWord w s = .next t) (hs : Inv s) : Inv t := by
  cases hw : decodeCmd w with
  | ok i =>
    rw [performWord_ok s hw] at h
    exact hs.exec h
  | error e =>
    rw [performWord_illegal s hw] at h
    cases h
    refine hs.raiseCmdError (.inl rfl) ?_
    rintro rfl
    cases hw

/-- Every transfer keeps the invariant where it is enabled. -/
theorem inv_fire (x : Transfer) (s t : State) (hx : x.enabled s = true) (h : x.fire s = .next t) (hs : Inv s) :
    Inv t := by
  have hnoted : Inv (record x s) := hs.withEnvironment _ _
  cases x with
  | reset => cases h; exact inv_resetBlock _
  | command w => exact hnoted.performWord h
  | txLine b l => cases h; exact hnoted.txLine
  | rxLine b l =>
    cases h
    exact hnoted.rxLine (by simpa [Transfer.enabled, rxReady] using hx) b l
  | output i => cases h; exact hnoted.output

/-- Settles O34: every transfer of the step's edge is enabled when its turn comes, and keeps the invariant. -/
theorem everyStepKeepsTheInvariant : Obligations.EveryStepKeepsTheInvariant :=
  fun _ _ hs h => step_keeps (fun s es hs => hs.withEnvironment es s.trace) inv_fire h hs

/-- Settles O33: the state after reset is a reset of itself, and has no item. -/
theorem resetMeetsTheInvariant : Obligations.ResetMeetsTheInvariant :=
  ⟨inv_resetBlock State.reset, rfl⟩

/-! ### The constants -/

theorem step_cfg {s t : State} (h : step s = .next t) : t.cfg = s.cfg :=
  step_keeps (P := fun u => u.cfg = s.cfg) (fun _ _ hu => hu)
    (fun x u v _ hv hu => by
      obtain ⟨v', hv', hcfg, -⟩ := fire_next x u
      cases hv.symm.trans hv'
      exact hcfg.trans hu)
    h rfl

/-- Settles O36: the ROM is a function of the constants, which every transfer keeps. -/
theorem noStepChangesTheConstants : Obligations.NoStepChangesTheConstants :=
  fun _ _ h => ⟨step_cfg h, fun a => by rw [step_cfg h]⟩

/-! ### The field pointer -/

/-- R125: the three rows of the legality table that move the field pointer. -/
theorem nextTxField_moves {f f' : TxField} {i : Instr} (h : nextTxField f i = some f') (hne : f' ≠ f) :
    (i = .txbegin ∧ f = .idle ∧ f' = .country) ∨ (i = .txsep ∧ f = .country ∧ f' = .text)
      ∨ (i = .txend ∧ f = .text ∧ f' = .idle) := by
  unfold nextTxField at h
  split at h <;> cases h
  · exact .inl ⟨rfl, rfl, rfl⟩
  · exact absurd rfl hne
  · exact absurd rfl hne
  · exact .inr (.inl ⟨rfl, rfl, rfl⟩)
  · exact .inr (.inr ⟨rfl, rfl, rfl⟩)

theorem TxPath.offer_field (v : TxPath) (i : Instr) :
    (v.offer i).field = v.field ∨ nextTxField v.field i = some (v.offer i).field := by
  unfold TxPath.offer
  split
  next f hf =>
    split
    · exact .inr hf
    · exact .inl rfl
  next => exact .inl rfl

/-- R130: an accepted word moves the field pointer only in the order of the legality table. -/
theorem TxPath.next_command_field {v : TxPath} {w : Word} (h : (v.next (.command w)).field ≠ v.field) :
    (w = 0x1000#16 ∧ v.field = .idle ∧ (v.next (.command w)).field = .country)
      ∨ (w = 0x3000#16 ∧ v.field = .country ∧ (v.next (.command w)).field = .text)
      ∨ (w = 0x4000#16 ∧ v.field = .text ∧ (v.next (.command w)).field = .idle) := by
  cases hw : decodeCmd w with
  | error e => exact absurd (congrArg TxPath.field (v.next_command_illegal hw)) h
  | ok i =>
    rw [v.next_command_ok hw] at h ⊢
    have hmove := nextTxField_moves ((v.offer_field i).resolve_left h) h
    rw [eq_encode_of_decodeCmd hw]
    obtain ⟨rfl, hf⟩ | ⟨rfl, hf⟩ | ⟨rfl, hf⟩ := hmove
    · exact .inl ⟨rfl, hf⟩
    · exact .inr (.inl ⟨rfl, hf⟩)
    · exact .inr (.inr ⟨rfl, hf⟩)

theorem foldl_txPath_txTransfer_field (p : Inputs) (s : State) (v : TxPath) :
    ((txTransfer p s).foldl TxPath.next v).field = v.field := by
  obtain h | h := txTransfer_cases p s
  all_goals rw [h]; rfl

/-- The field pointer after an edge without reset is where the accepted word, if there is one, moved it. -/
theorem clockEdge_txField {p : Inputs} {s t : State} (h : clockEdge p s = .next t) (hrst : p.rst = false) :
    t.txField = ((commandTransfer p s).foldl TxPath.next s.txPath).field := by
  have hpath := clockEdge_txPath h
  rw [hrst, List.foldl_append] at hpath
  exact (congrArg TxPath.field hpath).trans (foldl_txPath_txTransfer_field p s _)

theorem clockEdge_txField_of_reset {p : Inputs} {s t : State} (h : clockEdge p s = .next t) (hrst : p.rst = true) :
    t.txField = .idle := by
  rw [clockEdge, edgeTransfers_reset s hrst] at h
  cases h
  rfl

/-- Settles O38: only reset and an accepted word move the field pointer, the word as the legality table says. -/
theorem fieldPointerMovesInOrder : Obligations.FieldPointerMovesInOrder := by
  intro s t h hne
  cases hes : s.edges with
  | nil =>
    rw [step_of_no_edge hes] at h
    cases h
    exact absurd rfl hne
  | cons p rest =>
    rw [step_eq_clockEdge hes] at h
    refine ⟨p, rfl, ?_⟩
    cases hrst : p.rst with
    | true => exact .inl ⟨rfl, clockEdge_txField_of_reset h hrst⟩
    | false =>
      have hfield := clockEdge_txField h hrst
      unfold commandTransfer at hfield
      split at hfield
      next hcmd =>
        rw [Bool.and_eq_true] at hcmd
        rw [hfield] at hne ⊢
        exact .inr ⟨hcmd.1, TxPath.next_command_field hne⟩
      next => exact absurd hfield hne

end Sys2Proof.Machine
end

section
/-! PROOFS. The state seen from outside: its reset values, the ports' signals (R37 to R41) and STATUS (R33). -/

namespace Sys2Proof.Machine

/-- Settles O23: `State.reset` is written with R44's values, and STATUS computes to 0 from them. -/
theorem resetStateValues : Obligations.ResetStateValues :=
  ⟨rfl, rfl, rfl, rfl, rfl, rfl, rfl, rfl, rfl, rfl, by decide⟩

/-! ### The ports -/

theorem cmdReady_iff (w : Word) (s : State) : cmdReady w s = true ↔ ¬ (isTX w = true ∧ s.txPend ≠ []) := by
  rw [← cmdReady_eq_false, Bool.not_eq_false]

theorem txValid_iff (s : State) : txValid s = true ↔ s.txPend ≠ [] := by simp [txValid]

theorem rxReady_iff (s : State) : rxReady s = true ↔ s.rxOut = [] := by simp [rxReady]

theorem outValid_iff (s : State) : outValid s = true ↔ s.rxOut ≠ [] := by simp [outValid]

theorem txLast_iff (s : State) : txLast s = true ↔ s.txPendEnd = true ∧ s.txPend.length = 1 := by simp [txLast]

/-- Settles O25: with `rst` = 0 each signal is the state's, and with `rst` = 1 each valid and ready is masked. -/
theorem portsFollowTheState : Obligations.PortsFollowTheState := by
  refine fun s p => ⟨fun hrst => ?_, fun hrst => ?_⟩
  · simp only [outputs, hrst, Bool.not_false, Bool.true_and, cmdReady_iff, txValid_iff, rxReady_iff, outValid_iff,
      txLast_iff, true_and]
    refine ⟨fun b bs h => ?_, fun h => ?_, fun i is h => ?_, fun h => ?_⟩
    · simp [txBit, h]
    · simp [txBit, h]
    · simp [h]
    · simp [h]
  · refine ⟨?_, ?_, ?_, ?_, edgeTransfers_reset s hrst⟩ <;> simp [outputs, hrst]

/-! ### STATUS -/

theorem ofBool_eq_one_iff (b : Bool) : BitVec.ofBool b = 1#1 ↔ b = true := by cases b <;> decide

theorem txBusy_iff (s : State) : txBusy s = true ↔ s.txPend ≠ [] := by simp [txBusy]

theorem rxBusy_iff (s : State) : rxBusy s = true ↔ s.rxOut ≠ [] := by simp [rxBusy]

theorem rxActive_iff (s : State) : rxActive s = true ↔ s.rxBits ≠ [] ∨ s.rxOvf = true := by simp [rxActive]

/-- STATUS taken apart: each field of R33 at its bits. -/
theorem status_fields (s : State) :
    (status s).extractLsb' 0 1 = BitVec.ofBool (txBusy s) ∧ (status s).extractLsb' 1 2 = s.txField.code
      ∧ (status s).extractLsb' 3 1 = BitVec.ofBool s.cmdErr ∧ (status s).extractLsb' 4 2 = s.cmdCause.code
      ∧ (status s).extractLsb' 6 1 = BitVec.ofBool (rxBusy s) ∧ (status s).extractLsb' 7 1 = BitVec.ofBool (rxActive s)
      ∧ (status s).extractLsb' 8 3 = s.rxResult.code ∧ (status s).extractLsb' 11 1 = BitVec.ofBool s.rxOvf
      ∧ (status s).extractLsb' 12 4 = 0#4 ∧ (status s).extractLsb' 16 16 = s.errWord := by
  refine ⟨?_, ?_, ?_, ?_, ?_, ?_, ?_, ?_, ?_, ?_⟩ <;>
    simp (disch := omega) only [status, BitVec.extractLsb'_append_eq_of_le, BitVec.extractLsb'_append_eq_of_add_le] <;>
    exact BitVec.extractLsb'_eq_self

/-- Settles O26: the fields of `status_fields`, with each encoding written out. -/
theorem statusLayout : Obligations.StatusLayout := by
  intro s p
  obtain ⟨htx, hfield, herr, hcause, hbusy, hactive, hresult, hovf, hzero, hword⟩ := status_fields s
  simp only [htx, hfield, herr, hcause, hbusy, hactive, hresult, hovf, hzero, hword, ofBool_eq_one_iff, txBusy_iff,
    rxBusy_iff, rxActive_iff, true_and, and_true]
  refine ⟨rfl, ?_, ?_, ?_⟩
  · cases s.txField <;> rfl
  · cases s.cmdCause <;> rfl
  · cases s.rxResult <;> rfl

end Sys2Proof.Machine
end

section
/-! PROOFS. The reference microarchitecture of R48 realises the architectural lists: the shift register `tx_pend`,
the byte buffer and read pointer `rx_bits` and `rx_out`. -/

namespace Sys2Proof.Machine

/-! ### The serializer -/

/-- A non-empty ROM range begins with the byte the ROM pointer reads (R51, R133). -/
theorem romRange_cons {c : Config} {lo hi : Nat} (hlt : lo < hi) (hhi : hi ≤ c.lOvh) :
    ∃ b, romRead c lo = some b ∧ romRange c lo hi = b :: romRange c (lo + 1) hi := by
  have hrom : lo < (rom c).length := by rw [length_rom]; omega
  refine ⟨(rom c)[lo], List.getElem?_eq_getElem hrom, ?_⟩
  obtain ⟨n, hn⟩ : ∃ n, hi - lo = n + 1 := ⟨hi - lo - 1, by omega⟩
  have hn' : hi - (lo + 1) = n := by omega
  rw [romRange, romRange, hn, hn', List.range'_succ, List.filterMap_cons, romRead, List.getElem?_eq_getElem hrom]

theorem romRange_empty (c : Config) {lo hi : Nat} (h : hi ≤ lo) : romRange c lo hi = [] := by
  simp [romRange, Nat.sub_eq_zero_of_le h]

theorem take_eight_bits8 (b : Byte) : (bits8 b).take 8 = bits8 b := rfl

/-- The shift register shifted left by one. -/
theorem bits8_shiftLeft_one (b : Byte) : bits8 (b <<< 1) = (bits8 b).tail ++ [false] := by
  simp [bits8]

/-- Everything the internal activity can do: it waits, or it takes the next ROM byte (R48). -/
theorem TxMicro.reload_cases {c : Config} {m : TxMicro} (hrl : m.rl ≤ c.lOvh) :
    (¬ (m.shn = 0 ∧ m.rp < m.rl) ∧ m.reload c = m)
      ∨ (m.shn = 0 ∧ ∃ b, romRange c m.rp m.rl = b :: romRange c (m.rp + 1) m.rl
          ∧ m.reload c = { m with sh := b, rp := m.rp + 1, shn := 8 }) := by
  by_cases h : m.shn = 0 ∧ m.rp < m.rl
  · obtain ⟨b, hread, hrange⟩ := romRange_cons h.2 hrl
    exact .inr ⟨h.1, b, hrange, by simp only [TxMicro.reload, if_pos h, hread]⟩
  · exact .inl ⟨h, if_neg h⟩

theorem TxMicro.pending_reload {c : Config} {m : TxMicro} (hrl : m.rl ≤ c.lOvh) :
    (m.reload c).pending c = m.pending c := by
  obtain ⟨-, h⟩ | ⟨hshn, b, hrange, h⟩ := m.reload_cases hrl
  · rw [h]
  · simp [h, TxMicro.pending, hshn, hrange, take_eight_bits8]

theorem TxMicro.shn_reload_pos {c : Config} {m : TxMicro} (hrl : m.rl ≤ c.lOvh) (hpend : m.pending c ≠ []) :
    0 < (m.reload c).shn := by
  obtain ⟨hwait, h⟩ | ⟨-, b, -, h⟩ := m.reload_cases hrl
  · rw [h]
    by_contra hshn
    have hshn : m.shn = 0 := by omega
    have hrange : romRange c m.rp m.rl = [] := romRange_empty c (by omega)
    exact hpend (by simp [TxMicro.pending, hshn, hrange])
  · rw [h]
    exact Nat.zero_lt_succ 7

/-- With nothing pending the shift register is used up and no ROM byte is unread. -/
theorem TxMicro.pending_eq_nil {c : Config} {m : TxMicro} (h : m.pending c = []) :
    (bits8 m.sh).take m.shn = [] ∧ romRange c m.rp m.rl = [] := by
  simpa only [TxMicro.pending, List.append_eq_nil_iff, expand_eq_nil] using h

theorem TxMicro.pending_loadRom {c : Config} {m : TxMicro} (h : m.pending c = []) (lo hi : Nat) :
    (m.loadRom lo hi).pending c = expand (romRange c lo hi) := by
  simp only [TxMicro.loadRom, TxMicro.pending, (pending_eq_nil h).1, List.nil_append]

theorem TxMicro.pending_loadByte {c : Config} {m : TxMicro} (h : m.pending c = []) (b : Byte) :
    (m.loadByte b).pending c = bits8 b := by
  simp only [TxMicro.loadByte, TxMicro.pending, (pending_eq_nil h).2, take_eight_bits8, expand_nil, List.append_nil]

/-- The bits left after a shift are those left before it, without the first. -/
theorem take_bits8_shiftLeft_one (b : Byte) {n : Nat} (hn : n < 8) :
    (bits8 (b <<< 1)).take n = ((bits8 b).take (n + 1)).tail := by
  rw [bits8_shiftLeft_one, List.take_append_of_le_length (by simp; omega)]
  rfl

theorem TxMicro.pending_shift {c : Config} {m : TxMicro} (hpos : 0 < m.shn) (hshn : m.shn ≤ 8) :
    (m.pending c).head? = some (m.sh.getLsbD 7) ∧ m.shift.pending c = (m.pending c).tail := by
  obtain ⟨n, hn⟩ : ∃ n, m.shn = n + 1 := ⟨m.shn - 1, by omega⟩
  simp only [TxMicro.pending, TxMicro.shift, hn, Nat.add_sub_cancel]
  rw [take_bits8_shiftLeft_one m.sh (by omega)]
  exact ⟨rfl, rfl⟩

/-- Settles O59: one lemma per operation of the serializer. -/
theorem shiftRegisterRealisesTxPend : Obligations.ShiftRegisterRealisesTxPend :=
  fun _ _ hshn hrl => ⟨TxMicro.pending_reload hrl, TxMicro.shn_reload_pos hrl, TxMicro.pending_loadRom,
    TxMicro.pending_loadByte, fun hpos => TxMicro.pending_shift hpos hshn⟩

/-! ### The deserializer -/

/-- The low `n` bits of a byte, the highest first. -/
def lowBits (acc : Byte) (n : Nat) : List Bit := (List.range n).reverse.map fun i => acc.getLsbD i

theorem RxMicro.kept_eq (m : RxMicro) : m.kept = expand (m.buf.take m.nb) ++ lowBits m.acc m.na := rfl

theorem lowBits_eight (acc : Byte) : lowBits acc 8 = bits8 acc := rfl

/-- A bit shifted in from the right comes after the bits already there. -/
theorem lowBits_shiftIn (acc : Byte) (b : Bit) {n : Nat} (hn : n ≤ 7) :
    lowBits ((acc <<< 1) ||| (if b then 1#8 else 0#8)) (n + 1) = lowBits acc n ++ [b] := by
  have hnew : ((acc <<< 1) ||| (if b then 1#8 else 0#8)).getLsbD 0 = b := by cases b <;> simp
  have hold : ∀ i < n, ((acc <<< 1) ||| (if b then 1#8 else 0#8)).getLsbD (i + 1) = acc.getLsbD i := by
    intro i hi
    cases b <;> simp [BitVec.getLsbD_one] <;> omega
  simp only [lowBits, List.range_succ_eq_map, List.reverse_cons, List.map_append, List.map_reverse, List.map_map,
    List.map_cons, List.map_nil, hnew]
  congr 2
  exact List.map_congr_left fun i hi => hold i (List.mem_range.mp hi)

theorem RxMicro.kept_keep {m : RxMicro} (b : Bit) (hna : m.na ≤ 7) (hroom : m.nb < m.buf.length) :
    (m.keep b).kept = m.kept ++ [b] := by
  have hbits := lowBits_shiftIn m.acc b hna
  by_cases hfull : m.na + 1 = 8
  · rw [hfull, lowBits_eight] at hbits
    simp only [RxMicro.keep, if_pos hfull, RxMicro.kept_eq]
    rw [List.take_succ_eq_append_getElem (by simpa using hroom), expand_append, List.take_set_of_le (Nat.le_refl _),
      List.getElem_set_self]
    simp [hbits, lowBits]
  · simp only [RxMicro.keep, if_neg hfull, RxMicro.kept_eq, hbits, List.append_assoc]

theorem pack8_bits8 : ∀ c : Byte, pack8 (bits8 c) = c := by decide

/-- R102 on byte strings. -/
theorem groups8_expand (s : List Byte) : groups8 (expand s) = s := by
  induction s with
  | nil => rfl
  | cons c s ih => rw [expand_cons, groups8_eight _ (length_bits8 c), pack8_bits8, ih]

theorem RxMicro.itemsFrom_zero (c : Config) {m : RxMicro} (hna : m.na = 0) (hnb : m.nb ≤ m.buf.length) :
    m.itemsFrom c 0 = itemsOf c m.kept := by
  have hkept : m.kept = expand (m.buf.take m.nb) := by simp [RxMicro.kept_eq, hna, lowBits]
  rw [hkept, itemsOf, groups8_expand, List.length_take_of_le hnb]
  rfl

/-- Settles O60: a kept bit is the next low bit or completes a byte, and the read pointer drops what it passed. -/
theorem bufferRealisesTheRxState : Obligations.BufferRealisesTheRxState :=
  ⟨fun _ b => RxMicro.kept_keep b,
    fun c _ _ hna hnb => ⟨RxMicro.itemsFrom_zero c hna hnb, List.tail_drop.symm⟩⟩

end Sys2Proof.Machine
end

section
/-! PROOFS. A run as the transfers it makes: what every enabled transfer guarantees, and the guarantees of two parts
of a run chained, hold for a whole run. On each path the guarantee is a balance of what came in and what went out:
the TX line carries what the performed commands queue (R126, R127), the output port what the received units decode
to (R145, R150). -/

namespace Sys2Proof.Machine

/-! ### From one transfer to a run without reset -/

theorem reset_notMem_edgeTransfers {p : Inputs} (s : State) (h : p.rst = false) :
    Transfer.reset ∉ edgeTransfers p s := by
  rw [edgeTransfers_run s h]
  simp only [commandTransfer, txTransfer, rxTransfer, outTransfer, List.mem_append]
  split_ifs <;> simp

theorem noReset_of_no_edge {k : Nat} {s : State} (h : s.edges = []) : noReset k s = true := by
  simp [noReset, h]

theorem noReset_succ {k : Nat} {s : State} {p : Inputs} {rest : List Inputs} (hs : s.edges = p :: rest)
    (h : noReset (k + 1) s = true) : p.rst = false ∧ ∀ u : State, u.edges = rest → noReset k u = true := by
  rw [noReset, hs, List.take_succ_cons, List.all_cons, Bool.and_eq_true, Bool.not_eq_true'] at h
  exact ⟨h.1, fun u hu => by rw [noReset, hu]; exact h.2⟩

section Runs

variable {R : State → List Transfer → State → Prop}
  (hedges : ∀ (s : State) (es : List Inputs), R s [] { s with edges := es })
  (hchain : ∀ {s u t : State} {ts us : List Transfer}, R s ts u → R u us t → R s (ts ++ us) t)
  (hfire : ∀ (x : Transfer) (s t : State), x ≠ .reset → x.enabled s = true → x.fire s = .next t → R s [x] t)

include hedges hchain hfire

theorem fireAll_relates {ts : List Transfer} {s t : State} (hreset : Transfer.reset ∉ ts) (hts : EnabledInTurn ts s)
    (h : fireAll ts s = .next t) : R s ts t := by
  induction ts generalizing s with
  | nil => cases h; exact hedges _ _
  | cons x xs ih =>
    obtain ⟨hx, hxs⟩ := hts
    obtain ⟨s', hs', -⟩ := fire_next x s
    rw [fireAll_cons, hs', andThen_next] at h
    rw [List.mem_cons, not_or] at hreset
    exact hchain (hfire x s s' (Ne.symm hreset.1) hx hs') (ih hreset.2 (hxs s' hs') h)

/-- The transfers an edge notes are related as the single ones are. -/
theorem step_relates {s : State} {p : Inputs} {rest : List Inputs} (hs : s.edges = p :: rest) (hrst : p.rst = false) :
    ∃ u ts, step s = .next u ∧ u.edges = rest ∧ u.trace = s.trace ++ ts ∧ R s ts u := by
  obtain ⟨u, hu, -, hrest, htrace⟩ := fireAll_next (edgeTransfers p s) { s with edges := rest }
  have hfired : R { s with edges := rest } (edgeTransfers p s) u :=
    fireAll_relates hedges hchain hfire (reset_notMem_edgeTransfers s hrst) 
      (edgeTransfers_enabled p { s with edges := rest }) hu
  exact ⟨u, edgeTransfers p s, by rw [step_of_edge hs, hu], hrest, htrace,
    hchain (ts := []) (hedges s rest) hfired⟩

/-- A relation that does not read the coming edges, that chains, and that every enabled transfer but reset
guarantees, holds between the ends of every run without reset, for the transfers the run notes. -/
theorem runSteps_relates {k : Nat} {s t : State} (hno : noReset k s = true) (hrun : runSteps k s = .next t) :
    ∃ ts, t.trace = s.trace ++ ts ∧ R s ts t := by
  induction k generalizing s with
  | zero => cases hrun; exact ⟨[], (List.append_nil _).symm, hedges _ _⟩
  | succ k ih =>
    cases hes : s.edges with
    | nil =>
      rw [runSteps_succ k (step_of_no_edge hes)] at hrun
      exact ih (noReset_of_no_edge hes) hrun
    | cons p rest =>
      obtain ⟨hrst, hlater⟩ := noReset_succ hes hno
      obtain ⟨u, ts, hstep, hrest, htrace, hsu⟩ := step_relates hedges hchain hfire hes hrst
      rw [runSteps_succ k hstep] at hrun
      obtain ⟨us, htrace', hut⟩ := ih (hlater u hrest) hrun
      exact ⟨ts ++ us, by rw [htrace', htrace, List.append_assoc], hchain hsu hut⟩

end Runs

/-! ### What a list of transfers moved on each port -/

@[simp] theorem commandsOf_append (ts us : List Transfer) : commandsOf (ts ++ us) = commandsOf ts ++ commandsOf us :=
  List.filterMap_append

@[simp] theorem txBeatsOf_append (ts us : List Transfer) : txBeatsOf (ts ++ us) = txBeatsOf ts ++ txBeatsOf us :=
  List.filterMap_append

@[simp] theorem rxBeatsOf_append (ts us : List Transfer) : rxBeatsOf (ts ++ us) = rxBeatsOf ts ++ rxBeatsOf us :=
  List.filterMap_append

@[simp] theorem itemsTaken_append (ts us : List Transfer) : itemsTaken (ts ++ us) = itemsTaken ts ++ itemsTaken us :=
  List.filterMap_append

/-! ### The commands that accepted words perform (R125) -/

theorem performedFrom_cons (f : TxField) (w : Word) (ws : List Word) :
    performedFrom f (w :: ws) = performedFrom f [w] ++ performedFrom (fieldAfter f [w]) ws := by
  cases hw : decodeCmd w with
  | error e => simp [performedFrom, fieldAfter, hw]
  | ok i => cases hf : nextTxField f i <;> simp [performedFrom, fieldAfter, hw, hf]

theorem fieldAfter_cons (f : TxField) (w : Word) (ws : List Word) :
    fieldAfter f (w :: ws) = fieldAfter (fieldAfter f [w]) ws := by
  cases hw : decodeCmd w <;> simp [fieldAfter, hw]

theorem fieldAfter_append (f : TxField) (ws ws' : List Word) :
    fieldAfter f (ws ++ ws') = fieldAfter (fieldAfter f ws) ws' := by
  induction ws generalizing f with
  | nil => rfl
  | cons w ws ih => rw [List.cons_append, fieldAfter_cons, ih, ← fieldAfter_cons]

theorem performedFrom_append (f : TxField) (ws ws' : List Word) :
    performedFrom f (ws ++ ws') = performedFrom f ws ++ performedFrom (fieldAfter f ws) ws' := by
  induction ws generalizing f with
  | nil => rfl
  | cons w ws ih =>
    rw [List.cons_append, performedFrom_cons, ih, ← List.append_assoc, ← performedFrom_cons, ← fieldAfter_cons]

/-- A word that is illegal, or that has no row in the table, performs nothing. -/
theorem performedFrom_of_rejected {f : TxField} {w : Word} (h : ∀ i, decodeCmd w = .ok i → nextTxField f i = none) :
    performedFrom f [w] = [] ∧ fieldAfter f [w] = f := by
  cases hw : decodeCmd w with
  | error e => simp [performedFrom, fieldAfter, hw]
  | ok i => simp [performedFrom, fieldAfter, hw, h i hw]

theorem performedFrom_of_row {f f' : TxField} {w : Word} {i : Instr} (hw : decodeCmd w = .ok i)
    (hf : nextTxField f i = some f') : performedFrom f [w] = [i] ∧ fieldAfter f [w] = f' := by
  simp [performedFrom, fieldAfter, hw, hf]

theorem txClass_of_nextTxField {f f' : TxField} {i : Instr} (h : nextTxField f i = some f') : i.txClass = true := by
  cases i with
  | nop | clrstat => simp [nextTxField] at h
  | txbegin | txchar d | txsep | txend => rfl

/-- R37: the command port's class test on a word is the class of the instruction it encodes. -/
theorem isTX_of_decodeCmd {w : Word} {i : Instr} (h : decodeCmd w = .ok i) : isTX w = i.txClass := by
  rw [eq_encode_of_decodeCmd h]
  cases i with
  | nop => exact Laws.TableRow.nop.2.1
  | txbegin => exact Laws.TableRow.txbegin.2.1
  | txchar d => exact (Laws.TableRow.txchar d).2.1
  | txsep => exact Laws.TableRow.txsep.2.1
  | txend => exact Laws.TableRow.txend.2.1
  | clrstat => exact Laws.TableRow.clrstat.2.1

/-! ### The TX path's balance -/

/-- The pending bits of a TX path, as the TX line will carry them. -/
def TxPath.line (v : TxPath) : List (Bit × Bool) := beats v.pendEnd v.pend

theorem pendingBeats_eq_line (s : State) : pendingBeats s = s.txPath.line := rfl

/-- Between two TX paths the transfers `ts` delivered, with what is left, what was pending and what was queued. -/
structure TxBalance (v : TxPath) (ts : List Transfer) (v' : TxPath) : Prop where
  cfg : v'.cfg = v.cfg
  line : txBeatsOf ts ++ v'.line = v.line ++ (performedFrom v.field (commandsOf ts)).flatMap (lineOf v.cfg)
  field : v'.field = fieldAfter v.field (commandsOf ts)

/-- Transfers of no word and no TX bit balance a TX path with itself. -/
theorem TxBalance.refl (v : TxPath) {ts : List Transfer} (hcmd : commandsOf ts = []) (htx : txBeatsOf ts = []) :
    TxBalance v ts v where
  cfg := rfl
  line := by rw [hcmd, htx]; exact (List.append_nil _).symm
  field := by rw [hcmd]; rfl

theorem TxBalance.trans {v u w : TxPath} {ts us : List Transfer} (h : TxBalance v ts u) (h' : TxBalance u us w) :
    TxBalance v (ts ++ us) w where
  cfg := h'.cfg.trans h.cfg
  line := by
    rw [txBeatsOf_append, commandsOf_append, performedFrom_append, List.flatMap_append, List.append_assoc, h'.line,
      ← List.append_assoc, h.line, h.field, h.cfg, List.append_assoc]
  field := by rw [h'.field, h.field, commandsOf_append, fieldAfter_append]

theorem TxPath.next_command_of_row {v : TxPath} {w : Word} {i : Instr} {f : TxField} (hw : decodeCmd w = .ok i)
    (hf : nextTxField v.field i = some f) (hpend : v.pend = []) :
    v.next (.command w) = ⟨v.cfg, f, expand (queuedBytes v.cfg i), decide (i = .txend)⟩ := by
  simp only [v.next_command_ok hw, TxPath.offer, hf, if_pos hpend]

theorem TxPath.next_command_of_rejected {v : TxPath} {w : Word}
    (h : ∀ i, decodeCmd w = .ok i → nextTxField v.field i = none) : v.next (.command w) = v := by
  cases hw : decodeCmd w with
  | error e => exact v.next_command_illegal hw
  | ok i => rw [v.next_command_ok hw, TxPath.offer_of_no_row (h i hw)]

/-- R37, R125: an accepted word queues its bits behind none, or is rejected and queues none. -/
theorem TxBalance.command {v : TxPath} {w : Word} (hready : isTX w = true → v.pend = []) :
    TxBalance v [.command w] (v.next (.command w)) := by
  by_cases hrow : ∃ i f, decodeCmd w = .ok i ∧ nextTxField v.field i = some f
  · obtain ⟨i, f, hw, hf⟩ := hrow
    have hpend : v.pend = [] := hready (by rw [isTX_of_decodeCmd hw, txClass_of_nextTxField hf])
    obtain ⟨hperf, hfield⟩ := performedFrom_of_row hw hf
    rw [v.next_command_of_row hw hf hpend]
    refine ⟨rfl, ?_, hfield.symm⟩
    change TxPath.line _ = v.line ++ (performedFrom v.field [w]).flatMap (lineOf v.cfg)
    rw [hperf, TxPath.line, TxPath.line, hpend, List.flatMap_singleton]
    rfl
  · have hnone : ∀ i, decodeCmd w = .ok i → nextTxField v.field i = none := fun i hw =>
      Option.eq_none_iff_forall_ne_some.mpr fun f hf => hrow ⟨i, f, hw, hf⟩
    obtain ⟨hperf, hfield⟩ := performedFrom_of_rejected hnone
    rw [v.next_command_of_rejected hnone]
    refine ⟨rfl, ?_, hfield.symm⟩
    change v.line = v.line ++ (performedFrom v.field [w]).flatMap (lineOf v.cfg)
    rw [hperf, List.flatMap_nil, List.append_nil]

/-- R127: a TX line transfer delivers the head of the line, `tx_last` included. -/
theorem TxBalance.txLine {s : State} {b : Bit} {l : Bool} (h : (Transfer.txLine b l).enabled s = true) :
    TxBalance s.txPath [.txLine b l] (s.txPath.next (.txLine b l)) := by
  simp only [Transfer.enabled, Bool.and_eq_true, beq_iff_eq, txValid_iff] at h
  obtain ⟨⟨hpend, rfl⟩, rfl⟩ := h
  obtain ⟨b, bs, hbs⟩ := List.exists_cons_of_ne_nil hpend
  refine ⟨rfl, ?_, rfl⟩
  change (txBit s, txLast s) :: TxPath.line _ = s.txPath.line ++ []
  cases bs <;> simp [TxPath.line, TxPath.next, State.txPath, txBit, txLast, hbs, beats]

theorem txBalance_fire (x : Transfer) (s t : State) (hreset : x ≠ .reset) (hx : x.enabled s = true)
    (h : x.fire s = .next t) : TxBalance s.txPath [x] t.txPath := by
  rw [fire_txPath x s t h]
  cases x with
  | reset => exact absurd rfl hreset
  | command w =>
    have hready := (cmdReady_iff w s).mp hx
    exact TxBalance.command fun hTX => of_not_not fun hpend => hready ⟨hTX, hpend⟩
  | txLine b l => exact TxBalance.txLine hx
  | rxLine b l => exact TxBalance.refl _ rfl rfl
  | output i => exact TxBalance.refl _ rfl rfl

/-- Every run without reset balances on the TX path. -/
theorem runSteps_txBalance {k : Nat} {s t : State} (hno : noReset k s = true) (hrun : runSteps k s = .next t) :
    ∃ ts, t.trace = s.trace ++ ts ∧ TxBalance s.txPath ts t.txPath :=
  runSteps_relates (R := fun s ts t => TxBalance s.txPath ts t.txPath) (fun s _ => TxBalance.refl s.txPath rfl rfl)
    TxBalance.trans txBalance_fire hno hrun

/-- Settles O52: the balance of the TX path over the run. -/
theorem txLineCarriesWhatCommandsQueue : Obligations.TxLineCarriesWhatCommandsQueue := by
  intro k s t hno hrun
  obtain ⟨ts, htrace, hbalance⟩ := runSteps_txBalance hno hrun
  rw [pendingBeats_eq_line, pendingBeats_eq_line]
  exact ⟨ts, htrace, hbalance.line, hbalance.field⟩

/-! ### The units that received bits complete -/

/-- The unit that received bits leave open, the first one begun with `u`. -/
def openAfter : List Bit → List (Bit × Bool) → List Bit
  | u, [] => u
  | u, (b, l) :: rest => if l then openAfter [] rest else openAfter (u ++ [b]) rest

/-- The bits before and after a point of the line: the second part goes on with the unit the first leaves open. -/
theorem unitsFrom_append (u : List Bit) (bs bs' : List (Bit × Bool)) :
    unitsFrom u (bs ++ bs') = unitsFrom u bs ++ unitsFrom (openAfter u bs) bs'
      ∧ openAfter u (bs ++ bs') = openAfter (openAfter u bs) bs' := by
  induction bs generalizing u with
  | nil => exact ⟨rfl, rfl⟩
  | cons beat bs ih =>
    obtain ⟨b, l⟩ := beat
    cases l with
    | true => exact ⟨congrArg (_ :: ·) (ih []).1, (ih []).2⟩
    | false => exact ih (u ++ [b])

/-! ### The RX path's balance -/

/-- An RX path holds the open unit `u`: the bits that fit the buffer, and whether one was dropped (R140, R143). -/
structure RxPath.Holds (v : RxPath) (u : List Bit) : Prop where
  bits : v.bits = u.take (8 * v.cfg.nRxBuf)
  ovf : v.ovf = decide (8 * v.cfg.nRxBuf < u.length)

theorem RxPath.holds_nil {v : RxPath} (hbits : v.bits = []) (hovf : v.ovf = false) : v.Holds [] :=
  ⟨by rw [hbits, List.take_nil], hovf⟩

/-- What the buffer and the overflow mark become when a bit of the unit `u` is written (R140, R143). -/
theorem RxPath.Holds.write {v : RxPath} {u : List Bit} (h : v.Holds u) (b : Bit) :
    (Memory.write v.cfg v.bits b).1 = (u ++ [b]).take (8 * v.cfg.nRxBuf)
      ∧ (v.ovf || (Memory.write v.cfg v.bits b).2) = decide (8 * v.cfg.nRxBuf < (u ++ [b]).length) := by
  have hlen : v.bits.length = min (8 * v.cfg.nRxBuf) u.length := by rw [h.bits, List.length_take]
  obtain ⟨hroom, hw⟩ | ⟨hfull, hw⟩ := Memory.write_cases v.cfg v.bits b
  · have hu : u.length < 8 * v.cfg.nRxBuf := by omega
    rw [hw, h.ovf, h.bits, List.take_of_length_le hu.le, List.take_of_length_le (by simpa using hu)]
    refine ⟨rfl, ?_⟩
    rw [decide_eq_false (by omega), decide_eq_false (by simpa using hu)]
    rfl
  · have hu : 8 * v.cfg.nRxBuf ≤ u.length := by omega
    rw [hw, h.bits, List.take_append_of_le_length hu, Bool.or_true]
    exact ⟨rfl, (decide_eq_true (by simpa using Nat.lt_succ_of_le hu)).symm⟩

/-- From an RX path that holds the open unit `u` the transfers `ts` lead to one that holds the unit they leave open,
and took, with what is left, the items pending and those of the units completed. -/
structure RxBalance (u : List Bit) (v : RxPath) (ts : List Transfer) (v' : RxPath) : Prop where
  cfg : v'.cfg = v.cfg
  holds : v'.Holds (openAfter u (rxBeatsOf ts))
  items : itemsTaken ts ++ v'.out = v.out ++ (unitsFrom u (rxBeatsOf ts)).flatMap fun w => (unitOutcome v.cfg w).2

/-- Transfers of no RX bit and no item balance an RX path with itself. -/
theorem RxBalance.refl {u : List Bit} {v : RxPath} (h : v.Holds u) {ts : List Transfer} (hrx : rxBeatsOf ts = [])
    (htaken : itemsTaken ts = []) : RxBalance u v ts v where
  cfg := rfl
  holds := by rw [hrx]; exact h
  items := by rw [hrx, htaken]; exact (List.append_nil _).symm

theorem RxBalance.trans {u : List Bit} {v v' v'' : RxPath} {ts us : List Transfer} (h : RxBalance u v ts v')
    (h' : RxBalance (openAfter u (rxBeatsOf ts)) v' us v'') : RxBalance u v (ts ++ us) v'' where
  cfg := h'.cfg.trans h.cfg
  holds := by
    rw [rxBeatsOf_append, (unitsFrom_append _ _ _).2]
    exact h'.holds
  items := by
    rw [itemsTaken_append, rxBeatsOf_append, (unitsFrom_append _ _ _).1, List.flatMap_append, List.append_assoc,
      h'.items, ← List.append_assoc, h.items, h.cfg, List.append_assoc]

/-- R140, R145: an accepted bit goes on with the open unit, or ends it and gives its items; none is pending then. -/
theorem RxBalance.rxLine {u : List Bit} {v : RxPath} (h : v.Holds u) (hout : v.out = []) (b : Bit) (l : Bool) :
    RxBalance u v [.rxLine b l] (v.next (.rxLine b l)) := by
  obtain ⟨hbits, hovf⟩ := h.write b
  cases l with
  | false => exact ⟨rfl, ⟨hbits, hovf⟩, (List.append_nil _).symm⟩
  | true =>
    refine ⟨rfl, RxPath.holds_nil rfl rfl, ?_⟩
    change (unitDecode v.cfg (Memory.write v.cfg v.bits b).1 (v.ovf || (Memory.write v.cfg v.bits b).2)).2
      = v.out ++ [u ++ [b]].flatMap fun w => (unitOutcome v.cfg w).2
    rw [hbits, hovf, hout, List.flatMap_singleton]
    rfl

/-- R150: an output transfer takes the head item. -/
theorem RxBalance.output {u : List Bit} {v : RxPath} (h : v.Holds u) {i : Item} (hhead : v.out.head? = some i) :
    RxBalance u v [.output i] (v.next (.output i)) := by
  obtain ⟨is, his⟩ := List.head?_eq_some_iff.mp hhead
  refine ⟨rfl, ⟨h.bits, h.ovf⟩, ?_⟩
  change i :: v.out.tail = v.out ++ []
  rw [his, List.tail_cons, List.append_nil]

theorem rxBalance_fire (x : Transfer) (s t : State) (hreset : x ≠ .reset) (hx : x.enabled s = true)
    (h : x.fire s = .next t) {u : List Bit} (hu : s.rxPath.Holds u) : RxBalance u s.rxPath [x] t.rxPath := by
  rw [fire_rxPath x s t h]
  cases x with
  | reset => exact absurd rfl hreset
  | command w => exact RxBalance.refl hu rfl rfl
  | txLine b l => exact RxBalance.refl hu rfl rfl
  | rxLine b l => exact RxBalance.rxLine hu ((rxReady_iff s).mp hx) b l
  | output i => exact RxBalance.output hu (beq_iff_eq.mp hx)

/-- Every run without reset balances on the RX path, whatever unit is open at its start. -/
theorem runSteps_rxBalance {k : Nat} {s t : State} (hno : noReset k s = true) (hrun : runSteps k s = .next t) :
    ∃ ts, t.trace = s.trace ++ ts ∧ ∀ u, s.rxPath.Holds u → RxBalance u s.rxPath ts t.rxPath :=
  runSteps_relates (R := fun s ts t => ∀ u, s.rxPath.Holds u → RxBalance u s.rxPath ts t.rxPath)
    (fun _ _ _ hu => RxBalance.refl hu rfl rfl) (fun h h' u hu => (h u hu).trans (h' _ (h u hu).holds))
    (fun x s t hreset hx h _ hu => rxBalance_fire x s t hreset hx h hu) hno hrun

/-- Settles O55: the balance of the RX path over the run, which begins with the empty unit open. -/
theorem rxPathDeliversTheUnits : Obligations.RxPathDeliversTheUnits := by
  intro k s t hbits hovf hno hrun
  obtain ⟨ts, htrace, hbalance⟩ := runSteps_rxBalance hno hrun
  exact ⟨ts, htrace, (hbalance [] (RxPath.holds_nil hbits hovf)).items⟩

end Sys2Proof.Machine
end

section
/-! PROOFS. The marker ROM (R51) and the wire bytes of a frame (R56). -/

namespace Sys2Proof.Machine

/-- R51: an address reads a byte exactly when it lies inside the ROM. -/
theorem exists_romRead_iff (c : Config) (a : Nat) : (∃ b, romRead c a = some b) ↔ a < c.lOvh := by
  rw [← length_rom, romRead, ← Option.isSome_iff_exists, isSome_getElem?]

/-- Settles O45: the ROM is the three strings one after another, so an address below `L_S` falls in the first, one
below `L_S + L_C` in the first two. -/
theorem romLayout : Obligations.RomLayout := by
  refine fun c a => ⟨fun hS => ?_, fun hS hC => ?_, fun hC _ => ?_, exists_romRead_iff c a⟩
  all_goals
    rw [romRead, rom]
    have hlen : (c.startStr ++ c.creatorStr).length = c.lS + c.lC := List.length_append
  · rw [List.append_assoc, List.getElem?_append_left hS]
  · rw [List.getElem?_append_left (by rwa [hlen]), List.getElem?_append_right hS, Config.lS]
  · rw [List.getElem?_append_right (by rwa [hlen]), hlen]

/-- R56: packing a frame's bits gives back its bytes. -/
theorem wireBytes_encodeFrame (c : Config) (country text : List Byte) :
    wireBytes (encodeFrame c country text) = frameBytes c country text :=
  groups8_expand (frameBytes c country text)

/-- Settles O47: the wire bytes are FrameBytes, of which the frame is the expansion. -/
theorem wireBytesOfAFrame : Obligations.WireBytesOfAFrame := by
  intro c country text
  rw [wireBytes_encodeFrame]
  exact ⟨rfl, rfl⟩

end Sys2Proof.Machine
end

section
/-! PROOFS. The command word (R75 to R79): encoder and decoder are inverse, the port's class test, and the words
that encode no operation. -/

namespace Sys2Proof.Machine

/-! ### Encoder and decoder -/

/-- R78: the decoder gives an instruction back from its word, with its operand. -/
theorem decodeCmd_encode (i : Instr) : decodeCmd (encode i) = .ok i := by
  cases i with
  | nop | txbegin | txsep | txend | clrstat => rfl
  | txchar d =>
    obtain ⟨hmask, -, hdata⟩ := Laws.TableRow.txchar d
    change encode (.txchar d) &&& 0xFF00#16 = 0x2000#16 at hmask
    have hbegin : encode (.txchar d) ≠ 0x1000#16 := by
      intro h
      rw [h] at hmask
      exact absurd hmask (by decide)
    rw [decodeCmd, if_neg (encode_ne_zero rfl), if_neg hbegin, if_pos hmask, hdata d rfl]

theorem decodeCmd_eq_ok_iff {w : Word} {i : Instr} : decodeCmd w = .ok i ↔ w = encode i :=
  ⟨eq_encode_of_decodeCmd, fun h => h ▸ decodeCmd_encode i⟩

/-- Settles O1: `eq_encode_of_decodeCmd` and `decodeCmd_encode` are its two directions. -/
theorem decodeAndEncodeAgree : Obligations.DecodeAndEncodeAgree :=
  fun _ _ _ => decodeCmd_eq_ok_iff

/-- Settles O2: the words of the table are the encoder's. -/
theorem opcodeTableWordsDecode : Obligations.OpcodeTableWordsDecode :=
  ⟨decodeCmd_encode .nop, decodeCmd_encode .txbegin, decodeCmd_encode (.txchar 0x49#8),
    decodeCmd_encode (.txchar 0xFF#8), decodeCmd_encode .txsep, decodeCmd_encode .txend, decodeCmd_encode .clrstat⟩

/-- Settles O3: on a legal word the test is the class of its instruction, and on an illegal one it fails. -/
theorem commandPortTestIsTxClass : Obligations.CommandPortTestIsTxClass := by
  refine fun w => ⟨fun hTX => ?_, fun ⟨i, hi, hclass⟩ => (isTX_of_decodeCmd hi).trans hclass⟩
  cases hw : decodeCmd w with
  | ok i => exact ⟨i, rfl, (isTX_of_decodeCmd hw).symm.trans hTX⟩
  | error e => exact absurd hTX (by simp [(decodeCmd_error hw).2])

/-! ### The fields of a legal word -/

/-- R75: a word is its three fields, `OP` highest. -/
theorem fields_append (w : Word) : opField w ++ rsvField w ++ dataField w = w := by
  have hhigh : opField w ++ rsvField w = w.extractLsb' 8 8 :=
    BitVec.extractLsb'_append_extractLsb'_eq_extractLsb' rfl
  have hall : w.extractLsb' 8 8 ++ dataField w = w.extractLsb' 0 16 :=
    BitVec.extractLsb'_append_extractLsb'_eq_extractLsb' rfl
  rw [hhigh, hall]
  exact BitVec.extractLsb'_eq_self

theorem encode_txchar_append : ∀ d : Byte, encode (.txchar d) = 2#4 ++ 0#4 ++ d := by decide

theorem fields_encode_txchar (d : Byte) :
    opField (encode (.txchar d)) = 2#4 ∧ rsvField (encode (.txchar d)) = 0#4 := by
  rw [encode_txchar_append]
  constructor
  all_goals
    simp (disch := omega) only [opField, rsvField, BitVec.extractLsb'_append_eq_of_le,
      BitVec.extractLsb'_append_eq_of_add_le]
    exact BitVec.extractLsb'_eq_self

/-- R77: a legal word has `RSV` = 0, and its `DATA` is 0 unless its `OP` is `TXCHAR`'s. -/
theorem decodeCmd_ok_iff_fields (w : Word) :
    (∃ i, decodeCmd w = .ok i) ↔ rsvField w = 0#4
      ∧ ((opField w).toNat = 2 ∨ ((opField w).toNat ∈ [0, 1, 3, 4, 5] ∧ dataField w = 0#8)) := by
  constructor
  · rintro ⟨i, hi⟩
    obtain rfl := eq_encode_of_decodeCmd hi
    cases i with
    | nop | txbegin | txsep | txend | clrstat => decide
    | txchar d =>
      obtain ⟨hop, hrsv⟩ := fields_encode_txchar d
      exact ⟨hrsv, .inl (by rw [hop]; rfl)⟩
  · rintro ⟨hrsv, hop | ⟨hop, hdata⟩⟩
    · have hop : opField w = 2#4 := BitVec.eq_of_toNat_eq hop
      refine ⟨.txchar (dataField w), decodeCmd_eq_ok_iff.mpr ?_⟩
      rw [encode_txchar_append, ← hop, ← hrsv, fields_append]
    · have hword : w = BitVec.ofNat 4 (opField w).toNat ++ 0#4 ++ 0#8 := by
        rw [← hrsv, ← hdata, BitVec.ofNat_toNat, BitVec.setWidth_eq, fields_append]
      simp only [List.mem_cons, List.not_mem_nil, or_false] at hop
      obtain h | h | h | h | h := hop
      all_goals rw [hword, h]
      · exact ⟨.nop, rfl⟩
      · exact ⟨.txbegin, rfl⟩
      · exact ⟨.txsep, rfl⟩
      · exact ⟨.txend, rfl⟩
      · exact ⟨.clrstat, rfl⟩

theorem decodeCmd_error_iff (w : Word) : (∃ e, decodeCmd w = .error e) ↔ ¬ ∃ i, decodeCmd w = .ok i := by
  cases decodeCmd w <;> simp

/-- Settles O4: the negation of what a legal word's fields are. -/
theorem illegalWordsByField : Obligations.IllegalWordsByField := by
  intro w
  rw [decodeCmd_error_iff, decodeCmd_ok_iff_fields]
  by_cases hrsv : rsvField w = 0#4
  · simp only [hrsv, List.mem_cons, List.not_mem_nil, or_false, ne_eq, not_true_eq_false, and_false, true_and,
      false_or]
    by_cases hdata : dataField w = 0#8
    · simp only [hdata, not_true_eq_false, and_true, and_false, or_false]
      omega
    · simp only [hdata, not_false_eq_true, and_true, and_false, or_false]
      omega
  · exact iff_of_true (fun hlegal => hrsv hlegal.1)
      ((Nat.lt_or_ge 5 (opField w).toNat).imp_right fun hop => .inl ⟨hop, hrsv⟩)

/-! ### Counting the legal words -/

theorem encode_injective : Function.Injective encode := fun i j h => by
  have hj := decodeCmd_encode j
  rw [← h, decodeCmd_encode] at hj
  exact Except.ok.inj hj

/-- The bytes, each once. -/
def allBytes : List Byte := (List.finRange (2 ^ 8)).map BitVec.ofFin

/-- The instructions, each once. -/
def allInstrs : List Instr := [.nop, .txbegin, .txsep, .txend, .clrstat] ++ allBytes.map .txchar

theorem mem_allBytes (b : Byte) : b ∈ allBytes := List.mem_map.mpr ⟨b.toFin, List.mem_finRange _, rfl⟩

theorem nodup_allBytes : allBytes.Nodup :=
  (List.nodup_finRange _).map fun _ _ h => congrArg BitVec.toFin h

theorem mem_allInstrs (i : Instr) : i ∈ allInstrs := by
  cases i with
  | nop | txbegin | txsep | txend | clrstat => simp [allInstrs]
  | txchar d => exact List.mem_append_right _ (List.mem_map_of_mem (mem_allBytes d))

theorem nodup_allInstrs : allInstrs.Nodup := by
  have hchars : (allBytes.map Instr.txchar).Nodup := nodup_allBytes.map fun _ _ h => Instr.txchar.inj h
  refine List.nodup_append.mpr ⟨by decide, hchars, fun i hi j hj => ?_⟩
  obtain ⟨d, -, rfl⟩ := List.mem_map.mp hj
  rintro rfl
  simp at hi

theorem length_allInstrs : allInstrs.length = 5 + 256 := by simp [allInstrs, allBytes]

/-- Settles O5: the legal words are the words of the instructions, five without an operand and one for each byte. -/
theorem illegalWordCount : Obligations.IllegalWordCount := by
  have hlen : (allInstrs.map encode).length = 5 + 256 := by rw [List.length_map, length_allInstrs]
  refine ⟨allInstrs.map encode, nodup_allInstrs.map encode_injective, fun w => ?_, hlen, by rw [hlen]; rfl⟩
  exact List.mem_map.trans ⟨fun ⟨i, _, hi⟩ => ⟨i, decodeCmd_eq_ok_iff.mpr hi.symm⟩,
    fun ⟨i, hi⟩ => ⟨i, mem_allInstrs i, (decodeCmd_eq_ok_iff.mp hi).symm⟩⟩

end Sys2Proof.Machine
end

section
/-! PROOFS. A frame on the TX line: its fields at their bit offsets (R71, R104), and the schedule that sends it
(R88, R128, R202). -/

namespace Sys2Proof.Machine

/-! ### The layout of a frame -/

/-- The part `mid` of a frame's bytes lies behind the bits of the bytes before it. -/
theorem slice_encodeFrame {c : Config} {country text pre mid post : List Byte}
    (h : frameBytes c country text = pre ++ mid ++ post) {i j : Nat} (hi : i = 8 * pre.length)
    (hj : j = 8 * (pre.length + mid.length)) : slice (encodeFrame c country text) i j = expand mid := by
  have hpre : (expand pre).length = i := by rw [length_expand, hi]
  have hmid : (expand pre ++ expand mid).length = j := by rw [← expand_append, length_expand, List.length_append, hj]
  rw [encodeFrame, h, expand_append, expand_append, slice, List.take_left' hmid, List.drop_left' hpre]

theorem length_encodeFrame (c : Config) (country text : List Byte) :
    (encodeFrame c country text).length = 8 * (c.lOvh + country.length + 1 + text.length) := by
  rw [encodeFrame, length_expand, frameBytes]
  simp only [List.length_append, List.length_singleton, Config.lOvh, Config.lS, Config.lC, Config.lE]
  omega

/-- R100: bit `i` of a character's group is its bit `7 - i`. -/
theorem getElem?_bits8 (x : Byte) {i : Nat} (hi : i < 8) : (bits8 x)[i]? = some (x.getLsbD (7 - i)) := by
  interval_cases i <;> rfl

/-- Settles O46: each field is a part of FrameBytes, behind the fields before it. -/
theorem frameLayout : Obligations.FrameLayout := by
  intro c country text
  refine ⟨
    slice_encodeFrame (pre := []) (post := c.creatorStr ++ country ++ [sep] ++ text ++ c.endStr)
      (by simp [frameBytes]) ?_ ?_,
    slice_encodeFrame (pre := c.startStr) (post := country ++ [sep] ++ text ++ c.endStr)
      (by simp [frameBytes]) ?_ ?_,
    slice_encodeFrame (pre := c.startStr ++ c.creatorStr) (post := [sep] ++ text ++ c.endStr)
      (by simp [frameBytes]) ?_ ?_,
    slice_encodeFrame (pre := c.startStr ++ c.creatorStr ++ country) (mid := [sep]) (post := text ++ c.endStr)
      (by simp [frameBytes]) ?_ ?_,
    slice_encodeFrame (pre := c.startStr ++ c.creatorStr ++ country ++ [sep]) (post := c.endStr)
      (by simp [frameBytes]) ?_ ?_,
    slice_encodeFrame (pre := c.startStr ++ c.creatorStr ++ country ++ [sep] ++ text) (post := [])
      (by simp [frameBytes]) ?_ ?_,
    ?_, ?_, fun x _ => getElem?_bits8 x⟩
  all_goals
    simp only [length_encodeFrame, List.length_append, List.length_singleton, List.length_nil, Config.lOvh, Config.lS,
      Config.lC, Config.lE] <;> omega

/-! ### Runs that send bits and raise no error -/

theorem exists_step (s : State) : ∃ t, step s = .next t := by
  cases hes : s.edges with
  | nil => exact ⟨s, step_of_no_edge hes⟩
  | cons p rest =>
    obtain ⟨t, ht, -⟩ := fireAll_next (edgeTransfers p s) { s with edges := rest }
    exact ⟨t, (step_of_edge hes).trans ht⟩

theorem runSteps_add {j : Nat} {s u : State} (h : runSteps j s = .next u) (k : Nat) :
    runSteps (j + k) s = runSteps k u := by
  induction j generalizing s with
  | zero => cases h; rw [Nat.zero_add]
  | succ j ih =>
    obtain ⟨s', hs'⟩ := exists_step s
    rw [runSteps_succ j hs'] at h
    rw [Nat.succ_add, runSteps_succ (j + k) hs', ih h]

/-- The coming edges `es` lead from `s` to `t`, put `line` on the TX line and raise no command error. -/
structure Sends (s : State) (es : List Inputs) (line : List (Bit × Bool)) (t : State) : Prop where
  run : runSteps es.length s = .next t
  edges : s.edges = es ++ t.edges
  cfg : t.cfg = s.cfg
  line : txBeatsOf t.trace = txBeatsOf s.trace ++ line
  cmdErr : t.cmdErr = s.cmdErr
  cmdCause : t.cmdCause = s.cmdCause
  errWord : t.errWord = s.errWord

theorem Sends.refl (s : State) : Sends s [] [] s :=
  ⟨rfl, rfl, rfl, (List.append_nil _).symm, rfl, rfl, rfl⟩

theorem Sends.trans {s u t : State} {es es' : List Inputs} {line line' : List (Bit × Bool)}
    (h : Sends s es line u) (h' : Sends u es' line' t) : Sends s (es ++ es') (line ++ line') t where
  run := by rw [List.length_append, runSteps_add h.run, h'.run]
  edges := by rw [h.edges, h'.edges, List.append_assoc]
  cfg := h'.cfg.trans h.cfg
  line := by rw [h'.line, h.line, List.append_assoc]
  cmdErr := h'.cmdErr.trans h.cmdErr
  cmdCause := h'.cmdCause.trans h.cmdCause
  errWord := h'.errWord.trans h.errWord

theorem Sends.edges_eq {s t : State} {es rest : List Inputs} {line : List (Bit × Bool)} (h : Sends s es line t)
    (hes : s.edges = es ++ rest) : t.edges = rest :=
  List.append_cancel_left (h.edges.symm.trans hes)

/-! ### One command and its bits -/

/-- A step at the edge of one enabled transfer is that transfer. -/
theorem step_of_transfer {x : Transfer} {s : State} {rest : List Inputs} (hes : s.edges = x.inputs :: rest)
    (hx : x.enabled s = true) : step s = x.fire { s with edges := rest } :=
  (step_eq_clockEdge hes).trans (clockEdge_of_edgeTransfers (edgeTransfers_inputs hx))

/-- R125: a command in its row of the legality table, with no bit pending, queues its bytes. -/
theorem exec_of_row {i : Instr} {s : State} {f : TxField} (hpend : s.txPend = [])
    (hf : nextTxField s.txField i = some f) :
    exec i s = .next (queueTx f (queuedBytes s.cfg i) (decide (i = .txend)) s) := by
  obtain ⟨t, ht, -⟩ := exec_next i s
  rw [ht]
  obtain ⟨rfl, -⟩ | ⟨rfl, -⟩ | ⟨-, hne, -⟩ | ⟨f', -, -, hf', rfl⟩ | ⟨-, -, hnone, -⟩ := exec_cases ht
  · exact absurd (txClass_of_nextTxField hf) nofun
  · exact absurd (txClass_of_nextTxField hf) nofun
  · exact absurd hpend hne
  · rw [Option.some.inj (hf.symm.trans hf')]
  · exact absurd (hnone.symm.trans hf) nofun

theorem sends_offer {i : Instr} {s : State} {f : TxField} {rest : List Inputs}
    (hes : s.edges = offerInputs (encode i) :: rest) (hpend : s.txPend = [])
    (hf : nextTxField s.txField i = some f) :
    ∃ t, Sends s [offerInputs (encode i)] [] t
      ∧ t.txPath = ⟨s.cfg, f, expand (queuedBytes s.cfg i), decide (i = .txend)⟩ := by
  have hstep := step_of_transfer (x := .command (encode i)) hes (cmdReady_of_idle hpend)
  change step s = performWord _ _ at hstep
  rw [performWord_ok _ (decodeCmd_encode i),
    exec_of_row (s := record (.command (encode i)) { s with edges := rest }) hpend hf] at hstep
  exact ⟨_, ⟨runSteps_succ 0 hstep, hes, rfl, txBeatsOf_append _ _, rfl, rfl, rfl⟩, rfl⟩

/-- R127: a ready sink takes the first of the pending bits. -/
theorem sends_sink {s : State} {rest : List Inputs} (hes : s.edges = sinkInputs :: rest) (hpend : s.txPend ≠ []) :
    ∃ (beat : Bit × Bool) (t : State), Sends s [sinkInputs] [beat] t ∧ pendingBeats s = beat :: pendingBeats t
      ∧ t.txPend = s.txPend.tail ∧ t.txField = s.txField := by
  have henabled : (Transfer.txLine (txBit s) (txLast s)).enabled s = true := by
    simpa [Transfer.enabled] using (txValid_iff s).mpr hpend
  have hstep := step_of_transfer hes henabled
  have hline := (TxBalance.txLine henabled).line
  exact ⟨(txBit s, txLast s), _, ⟨runSteps_succ 0 hstep, hes, rfl, txBeatsOf_append _ _, rfl, rfl, rfl⟩,
    (List.append_nil _).symm.trans hline.symm, rfl, rfl⟩

/-- A sink ready for as many edges as bits are pending takes them all. -/
theorem sends_pending {n : Nat} {s : State} {rest : List Inputs} (hn : s.txPend.length = n)
    (hes : s.edges = List.replicate n sinkInputs ++ rest) :
    ∃ t, Sends s (List.replicate n sinkInputs) (pendingBeats s) t ∧ t.txPend = [] ∧ t.txField = s.txField := by
  induction n generalizing s with
  | zero =>
    have hpend : s.txPend = [] := List.length_eq_zero_iff.mp hn
    have hline : pendingBeats s = [] := by rw [pendingBeats, hpend, beats]
    rw [hline]
    exact ⟨s, .refl s, hpend, rfl⟩
  | succ n ih =>
    rw [List.replicate_succ, List.cons_append] at hes
    obtain ⟨beat, u, hsu, hline, hpend, hfield⟩ := sends_sink hes (List.ne_nil_of_length_eq_add_one hn)
    obtain ⟨t, hut, hidle, hfield'⟩ := ih (by rw [hpend, List.length_tail, hn]; rfl) (hsu.edges_eq hes)
    rw [hline]
    exact ⟨t, hsu.trans hut, hidle, hfield'.trans hfield⟩

/-- R202: the edges at which the host offers a command's word and the sink then takes its bits. -/
def commandEdges (c : Config) (i : Instr) : List Inputs :=
  offerInputs (encode i) :: List.replicate (8 * (queuedBytes c i).length) sinkInputs

theorem frameSchedule_eq (c : Config) (country text : List Byte) :
    frameSchedule c country text = (txframe country text).flatMap (commandEdges c) := rfl

theorem sends_command {i : Instr} {s : State} {f : TxField} {rest : List Inputs}
    (hes : s.edges = commandEdges s.cfg i ++ rest) (hpend : s.txPend = []) (hf : nextTxField s.txField i = some f) :
    ∃ t, Sends s (commandEdges s.cfg i) (lineOf s.cfg i) t ∧ t.txPend = [] ∧ t.txField = f := by
  obtain ⟨u, hsu, hpath⟩ := sends_offer hes hpend hf
  have hqueued : u.txPend = expand (queuedBytes s.cfg i) := congrArg TxPath.pend hpath
  have hline : pendingBeats u = lineOf s.cfg i := by rw [pendingBeats_eq_line, hpath]; rfl
  obtain ⟨t, hut, hidle, hfield⟩ := sends_pending (by rw [hqueued, length_expand]) (hsu.edges_eq hes)
  rw [hline] at hut
  exact ⟨t, hsu.trans hut, hidle, hfield.trans (congrArg TxPath.field hpath)⟩

/-- Commands that the legality table takes from `f` to `f'` are sent one after another. -/
theorem sends_commands {is : List Instr} {s : State} {f' : TxField} {rest : List Inputs}
    (hes : s.edges = is.flatMap (commandEdges s.cfg) ++ rest) (hpend : s.txPend = [])
    (hf : is.foldlM nextTxField s.txField = some f') :
    ∃ t, Sends s (is.flatMap (commandEdges s.cfg)) (is.flatMap (lineOf s.cfg)) t ∧ t.txPend = [] ∧ t.txField = f' := by
  induction is generalizing s with
  | nil => exact ⟨s, .refl s, hpend, Option.some.inj hf⟩
  | cons i is ih =>
    rw [List.flatMap_cons, List.append_assoc] at hes
    rw [List.foldlM_cons] at hf
    obtain ⟨f, hrow, hrows⟩ := Option.bind_eq_some_iff.mp hf
    obtain ⟨u, hsu, hpend', rfl⟩ := sends_command hes hpend hrow
    have hes' := hsu.edges_eq hes
    rw [← hsu.cfg] at hes'
    obtain ⟨t, hut, hidle, hfield⟩ := ih hes' hpend' hrows
    rw [hsu.cfg] at hut
    exact ⟨t, hsu.trans hut, hidle, hfield⟩

/-! ### The commands of a frame -/

theorem foldlM_txstr {f : TxField} (hf : ∀ d, nextTxField f (.txchar d) = some f) (s : List Byte) :
    (txstr s).foldlM nextTxField f = some f := by
  induction s with
  | nil => rfl
  | cons d s ih => rw [txstr, List.map_cons, List.foldlM_cons, hf]; exact ih

/-- R88, R125: the commands of `TXFRAME` are in the order of the legality table. -/
theorem foldlM_txframe (country text : List Byte) :
    (txframe country text).foldlM nextTxField .idle = some .idle := by
  have hcountry := foldlM_txstr (f := .country) (fun _ => rfl) country
  have htext := foldlM_txstr (f := .text) (fun _ => rfl) text
  simp [txframe, List.foldlM_append, nextTxField, hcountry, htext]

/-- Bits of which the last ones follow: only those can end with `tx_last` = 1. -/
theorem beats_append (closes : Bool) (bs : List Bit) {bs' : List Bit} (h : bs' ≠ []) :
    beats closes (bs ++ bs') = beats false bs ++ beats closes bs' := by
  induction bs with
  | nil => rfl
  | cons b bs ih => simp [beats, ih, h]

theorem beats_false_append (bs bs' : List Bit) : beats false (bs ++ bs') = beats false bs ++ beats false bs' := by
  induction bs with
  | nil => rfl
  | cons b bs ih => simp [beats, ih]

/-- R129: commands other than `TXEND` put their bits on the line without `tx_last`. -/
theorem flatMap_lineOf {is : List Instr} (c : Config) (h : ∀ i ∈ is, i ≠ .txend) :
    is.flatMap (lineOf c) = beats false (expand (is.flatMap (queuedBytes c))) := by
  induction is with
  | nil => rfl
  | cons i is ih =>
    rw [List.forall_mem_cons] at h
    rw [List.flatMap_cons, List.flatMap_cons, expand_append, beats_false_append, ih h.2, lineOf, decide_eq_false h.1]

theorem flatMap_queuedBytes_txstr (c : Config) (s : List Byte) : (txstr s).flatMap (queuedBytes c) = s := by
  simp [txstr, List.flatMap_map, queuedBytes]

/-- R128, R129: the commands of `TXFRAME` put Encode on the line, with `tx_last` on its last bit only. -/
theorem flatMap_lineOf_txframe (c : Config) (country text : List Byte) :
    (txframe country text).flatMap (lineOf c) = beats true (encodeFrame c country text) := by
  have hopen : ∀ i ∈ [.txbegin] ++ txstr country ++ [.txsep] ++ txstr text, i ≠ .txend := by
    simp [txstr, or_imp, forall_and]
  have hend : expand c.endStr ≠ [] := mt (expand_eq_nil _).mp (endStr_ne_nil c)
  rw [txframe, List.flatMap_append, flatMap_lineOf c hopen, encodeFrame, frameBytes, expand_append,
    beats_append true _ hend]
  simp only [List.flatMap_append, List.flatMap_singleton, flatMap_queuedBytes_txstr]
  rfl

/-- Settles O54: the schedule offers the commands of `TXFRAME`, each sent with its bits before the next. -/
theorem frameScheduleSendsTheFrame : Obligations.FrameScheduleSendsTheFrame := by
  intro s country text rest hfield hpend hes
  rw [frameSchedule_eq] at hes ⊢
  have horder := foldlM_txframe country text
  nth_rw 1 [← hfield] at horder
  obtain ⟨t, hsends, hidle, hclosed⟩ := sends_commands hes hpend horder
  have hline := hsends.line
  rw [flatMap_lineOf_txframe] at hline
  exact ⟨t, hsends.run, hline, hclosed, hidle, hsends.edges_eq hes, hsends.cmdErr, hsends.cmdCause, hsends.errWord⟩

end Sys2Proof.Machine
end

section
/-! PROOFS. The codec's functions (R101, R102, R106 to R112): the packer undoes the expander, Decode's domain and
results are the units of four byte strings one after another, and a unit's items carry those strings by field. -/

namespace Sys2Proof.Machine

/-! ### The expander and the packer -/

theorem bits8_pack8 {b : List Bit} (h : b.length = 8) : bits8 (pack8 b) = b := by
  match b, h with
  | [b7, b6, b5, b4, b3, b2, b1, b0], _ => decide +revert

/-- A string of whole bytes is the expansion of its bytes. -/
theorem expand_groups8 {n : Nat} {bits : List Bit} (h : bits.length = 8 * n) : expand (groups8 bits) = bits := by
  induction n generalizing bits with
  | zero => rw [List.length_eq_zero_iff.mp h]; rfl
  | succ n ih =>
    have hfirst : (bits.take 8).length = 8 := by rw [List.length_take]; omega
    have hrest : (bits.drop 8).length = 8 * n := by rw [List.length_drop]; omega
    calc expand (groups8 bits) = expand (groups8 (bits.take 8 ++ bits.drop 8)) := by rw [List.take_append_drop]
      _ = bits.take 8 ++ bits.drop 8 := by rw [groups8_eight _ hfirst, expand_cons, bits8_pack8 hfirst, ih hrest]
      _ = bits := List.take_append_drop 8 bits

/-- Settles O43: `pack8` and `bits8` undo each other on eight bits, so `groups8` undoes the expansion byte by byte. -/
theorem expanderAndPackerAreInverse : Obligations.ExpanderAndPackerAreInverse :=
  ⟨pack8_bits8, fun _ => bits8_pack8, groups8_expand⟩

/-! ### Decode -/

/-- The part `mid` of a byte string is what packing its stretch of the expanded bits gives. -/
theorem groups8_slice_expand {s pre mid post : List Byte} (h : s = pre ++ mid ++ post) {i j : Nat}
    (hi : i = 8 * pre.length) (hj : j = 8 * (pre.length + mid.length)) :
    groups8 (slice (expand s) i j) = mid := by
  have hpre : (expand pre).length = i := by rw [length_expand, hi]
  have hmid : (expand (pre ++ mid)).length = j := by rw [length_expand, List.length_append, hj]
  rw [h, expand_append, slice, List.take_left' hmid, expand_append, List.drop_left' hpre, groups8_expand]

theorem inDecodeDomain_iff {c : Config} {bits : List Bit} :
    inDecodeDomain c bits = true ↔ bits.length % 8 = 0 ∧ 8 * c.lOvh ≤ bits.length := by
  rw [inDecodeDomain, Bool.and_eq_true, decide_eq_true_eq, decide_eq_true_eq]

/-- R107: Decode cuts the first `L_S` and `L_C` bytes and the last `L_E` off, and what is between is the payload. -/
theorem decodeFrame_expand {c : Config} {start creator payload ending : List Byte} (hS : start.length = c.lS)
    (hC : creator.length = c.lC) (hE : ending.length = c.lE) :
    decodeFrame c (expand (start ++ creator ++ payload ++ ending)) = some ⟨start, creator, payload, ending⟩ := by
  have hlen : (expand (start ++ creator ++ payload ++ ending)).length
      = 8 * (c.lS + c.lC + payload.length + c.lE) := by
    simp only [length_expand, List.length_append, hS, hC, hE]
  have hdom : inDecodeDomain c (expand (start ++ creator ++ payload ++ ending)) = true := by
    rw [inDecodeDomain_iff, hlen, Config.lOvh]; omega
  simp only [decodeFrame, if_pos hdom, Option.some.injEq, Fields.mk.injEq]
  refine ⟨groups8_slice_expand (pre := []) (post := creator ++ payload ++ ending) (by simp) ?_ ?_,
    groups8_slice_expand (pre := start) (post := payload ++ ending) (by simp) ?_ ?_,
    groups8_slice_expand (pre := start ++ creator) (post := ending) rfl ?_ ?_,
    groups8_slice_expand (pre := start ++ creator ++ payload) (post := []) (by simp) ?_ ?_⟩
  all_goals
    simp only [hlen, List.length_append, List.length_nil, hS, hC, hE] <;> omega

/-- A byte string of at least the overhead is four strings, of which the first, second and last have the lengths of
the markers and the tag. -/
theorem exists_fields_of_overhead_le {c : Config} {s : List Byte} (h : c.lOvh ≤ s.length) :
    ∃ start creator payload ending : List Byte, s = start ++ creator ++ payload ++ ending ∧ start.length = c.lS
      ∧ creator.length = c.lC ∧ ending.length = c.lE := by
  unfold Config.lOvh at h
  refine ⟨s.take c.lS, (s.drop c.lS).take c.lC, ((s.drop c.lS).drop c.lC).take (s.length - c.lOvh),
    ((s.drop c.lS).drop c.lC).drop (s.length - c.lOvh), ?_, ?_, ?_, ?_⟩
  · rw [List.append_assoc, List.append_assoc, List.take_append_drop, List.take_append_drop, List.take_append_drop]
  all_goals
    simp only [List.length_take, List.length_drop, Config.lOvh]
    omega

/-- R107, R109: the units that decode, and to what. -/
theorem decodeFrame_eq_some_iff {c : Config} {bits : List Bit} {d : Fields} :
    decodeFrame c bits = some d ↔
      bits = expand (d.start ++ d.creator ++ d.payload ++ d.ending) ∧ d.start.length = c.lS
        ∧ d.creator.length = c.lC ∧ d.ending.length = c.lE := by
  constructor
  · intro h
    have hdom : inDecodeDomain c bits = true := by
      by_contra hdom
      rw [decodeFrame, if_neg hdom] at h
      cases h
    obtain ⟨hwhole, hlen⟩ := inDecodeDomain_iff.mp hdom
    have hbits : expand (groups8 bits) = bits := expand_groups8 (n := bits.length / 8) (by omega)
    obtain ⟨start, creator, payload, ending, hs, hS, hC, hE⟩ :=
      exists_fields_of_overhead_le (c := c) (s := groups8 bits) (by rw [length_groups8]; omega)
    rw [hs] at hbits
    rw [← hbits, decodeFrame_expand hS hC hE] at h
    cases h
    exact ⟨hbits.symm, hS, hC, hE⟩
  · rintro ⟨rfl, hS, hC, hE⟩
    exact decodeFrame_expand hS hC hE

/-- Settles O48: a frame's bytes are START_STR, CREATOR_STR, the payload and END_STR, whatever the payload's bytes
are. -/
theorem decodeOfEncode : Obligations.DecodeOfEncode := fun c country text =>
  decodeFrame_eq_some_iff.mpr ⟨by simp only [encodeFrame, frameBytes, sep, List.append_assoc], rfl, rfl, rfl⟩

/-- Settles O49: the bytes of two frames begin with the first frame's marker and tag and end with the second's
END_STR, and Decode looks only at those lengths. -/
theorem coalescedFramesDecode : Obligations.CoalescedFramesDecode := fun c c1 t1 c2 t2 =>
  decodeFrame_eq_some_iff.mpr
    ⟨by simp only [encodeFrame, frameBytes, sep, ← expand_append, List.append_assoc], rfl, rfl, rfl⟩

/-! ### The field of a byte -/

section FieldOf
variable {c : Config} {m k : Nat}

theorem fieldOf_eq_start_iff : fieldOf c m k = .start ↔ k < c.lS := by
  unfold fieldOf; split_ifs <;> simp <;> omega

theorem fieldOf_eq_creator_iff : fieldOf c m k = .creator ↔ c.lS ≤ k ∧ k < c.lS + c.lC := by
  unfold fieldOf; split_ifs <;> simp <;> omega

theorem fieldOf_eq_payload_iff :
    fieldOf c m k = .payload ↔ c.lS + c.lC ≤ k ∧ k < c.lS + c.lC + (m - c.lOvh) := by
  unfold fieldOf; split_ifs <;> simp <;> omega

theorem fieldOf_eq_endMarker_iff : fieldOf c m k = .endMarker ↔ c.lS + c.lC + (m - c.lOvh) ≤ k := by
  unfold fieldOf; split_ifs <;> simp <;> omega

/-- R9, R106: the last byte of a unit is an END byte, because END_STR is not empty. -/
theorem fieldOf_last (hm : c.lOvh ≤ m) (hk : k + 1 = m) : fieldOf c m k = .endMarker := by
  have hE := lE_pos c
  rw [fieldOf_eq_endMarker_iff]
  unfold Config.lOvh at *
  omega

/-- R106: the byte marked `flast` is the unit's last or is followed by a byte of another field. -/
theorem flastOf_iff (hm : c.lOvh ≤ m) (hk : k < m) :
    flastOf c m k = true ↔ k + 1 = m ∨ k + 1 < m ∧ fieldOf c m (k + 1) ≠ fieldOf c m k := by
  have hE := lE_pos c
  have hovh : c.lOvh = c.lS + c.lC + c.lE := rfl
  cases hf : fieldOf c m k with
  | start =>
    have := fieldOf_eq_start_iff.mp hf
    simp only [flastOf, hf, decide_eq_true_eq, ne_eq, fieldOf_eq_start_iff]; omega
  | creator =>
    have := fieldOf_eq_creator_iff.mp hf
    simp only [flastOf, hf, decide_eq_true_eq, ne_eq, fieldOf_eq_creator_iff]; omega
  | payload =>
    have := fieldOf_eq_payload_iff.mp hf
    simp only [flastOf, hf, decide_eq_true_eq, ne_eq, fieldOf_eq_payload_iff]; omega
  | endMarker =>
    have := fieldOf_eq_endMarker_iff.mp hf
    simp only [flastOf, hf, decide_eq_true_eq, ne_eq, fieldOf_eq_endMarker_iff]; omega

end FieldOf

/-! ### The items of a unit -/

/-- The items of the bytes `s` that begin at index `k` of a unit of `m` bytes. -/
def itemsAt (c : Config) (m k : Nat) (s : List Byte) : List Item :=
  (s.zipIdx k).map fun p => itemAt c m p.1 p.2

theorem itemsOf_expand (c : Config) (s : List Byte) : itemsOf c (expand s) = itemsAt c s.length 0 s := by
  rw [itemsOf, groups8_expand, itemsAt]

theorem itemsAt_append (c : Config) (m k : Nat) (s t : List Byte) :
    itemsAt c m k (s ++ t) = itemsAt c m k s ++ itemsAt c m (k + s.length) t := by
  rw [itemsAt, List.zipIdx_append, List.map_append, itemsAt, itemsAt]

theorem fieldBytes_append (f : Field) (is js : List Item) :
    fieldBytes f (is ++ js) = fieldBytes f is ++ fieldBytes f js := by
  rw [fieldBytes, List.filter_append, List.map_append, fieldBytes, fieldBytes]

theorem map_byte_itemsAt (c : Config) (m k : Nat) (s : List Byte) : (itemsAt c m k s).map Item.byte = s := by
  rw [itemsAt, List.map_map]
  exact List.zipIdx_map_fst k s

/-- A stretch of a unit inside one field gives all its bytes to that field and none to another. -/
theorem fieldBytes_itemsAt {c : Config} {m k : Nat} {s : List Byte} {g : Field}
    (h : ∀ i, k ≤ i → i < k + s.length → fieldOf c m i = g) (f : Field) :
    fieldBytes f (itemsAt c m k s) = if g = f then s else [] := by
  have hg : ∀ i ∈ itemsAt c m k s, i.field = g := by
    intro i hi
    obtain ⟨⟨b, n⟩, hmem, rfl⟩ := List.mem_map.mp hi
    exact h n (List.le_snd_of_mem_zipIdx hmem) (List.snd_lt_add_of_mem_zipIdx hmem)
  rw [fieldBytes]
  split_ifs with hgf
  · rw [List.filter_eq_self.mpr fun i hi => decide_eq_true ((hg i hi).trans hgf), map_byte_itemsAt]
  · rw [List.filter_eq_nil_iff.mpr fun i hi => by simpa [hg i hi] using hgf, List.map_nil]

/-- R106: the items of four strings of the fields' lengths, by field. -/
theorem fieldBytes_itemsOf_expand {c : Config} {start creator payload ending : List Byte}
    (hS : start.length = c.lS) (hC : creator.length = c.lC) (hE : ending.length = c.lE) (f : Field) :
    fieldBytes f (itemsOf c (expand (start ++ creator ++ payload ++ ending)))
      = (if .start = f then start else []) ++ (if .creator = f then creator else [])
          ++ (if .payload = f then payload else []) ++ (if .endMarker = f then ending else []) := by
  have hlen : (start ++ creator ++ payload ++ ending).length - c.lOvh = payload.length := by
    simp only [List.length_append, hS, hC, hE, Config.lOvh]; omega
  simp only [itemsOf_expand, itemsAt_append, fieldBytes_append]
  congr 1
  · congr 1
    · congr 1
      · exact fieldBytes_itemsAt (fun i _ _ => fieldOf_eq_start_iff.mpr (by omega)) f
      · exact fieldBytes_itemsAt (fun i _ _ => fieldOf_eq_creator_iff.mpr (by omega)) f
    · refine fieldBytes_itemsAt (fun i hlo hhi => fieldOf_eq_payload_iff.mpr ?_) f
      rw [List.length_append] at hlo hhi; omega
  · refine fieldBytes_itemsAt (fun i hlo _ => fieldOf_eq_endMarker_iff.mpr ?_) f
    rw [List.length_append, List.length_append] at hlo; omega

theorem length_itemsOf (c : Config) (bits : List Bit) : (itemsOf c bits).length = (groups8 bits).length := by
  rw [itemsOf, List.length_map, List.length_zipIdx]

/-- R108: item `k` is that of byte `k`. -/
theorem getElem?_itemsOf_eq_some_iff {c : Config} {bits : List Bit} {k : Nat} {i : Item} :
    (itemsOf c bits)[k]? = some i
      ↔ ∃ b, (groups8 bits)[k]? = some b ∧ itemAt c (groups8 bits).length b k = i := by
  simp [itemsOf]

/-- R106, R108: the marks of item `k`, in a unit of at least the overhead. -/
theorem marks_of_getElem?_itemsOf {c : Config} {bits : List Bit} (hm : c.lOvh ≤ (groups8 bits).length) {k : Nat}
    {i : Item} (h : (itemsOf c bits)[k]? = some i) :
    (i.last = true ↔ k + 1 = (itemsOf c bits).length) ∧ (i.last = true → i.field = .endMarker ∧ i.flast = true)
      ∧ (i.flast = true ↔ k + 1 = (itemsOf c bits).length
          ∨ ∃ j : Item, (itemsOf c bits)[k + 1]? = some j ∧ j.field ≠ i.field) := by
  obtain ⟨b, hb, rfl⟩ := getElem?_itemsOf_eq_some_iff.mp h
  have hk : k < (groups8 bits).length := (List.getElem?_eq_some_iff.mp hb).1
  have hlast : (itemAt c (groups8 bits).length b k).last = true ↔ k + 1 = (groups8 bits).length := decide_eq_true_iff
  have hnext : (∃ j : Item, (itemsOf c bits)[k + 1]? = some j ∧ j.field ≠ fieldOf c (groups8 bits).length k)
      ↔ k + 1 < (groups8 bits).length
        ∧ fieldOf c (groups8 bits).length (k + 1) ≠ fieldOf c (groups8 bits).length k := by
    constructor
    · rintro ⟨j, hj, hne⟩
      obtain ⟨b', hb', rfl⟩ := getElem?_itemsOf_eq_some_iff.mp hj
      exact ⟨(List.getElem?_eq_some_iff.mp hb').1, hne⟩
    · rintro ⟨hlt, hne⟩
      exact ⟨_, getElem?_itemsOf_eq_some_iff.mpr ⟨_, List.getElem?_eq_getElem hlt, rfl⟩, hne⟩
  rw [length_itemsOf]
  refine ⟨hlast, fun hl => ⟨fieldOf_last hm (hlast.mp hl), ?_⟩, ?_⟩
  · exact (flastOf_iff hm hk).mpr (.inl (hlast.mp hl))
  · exact (flastOf_iff hm hk).trans (or_congr_right hnext.symm)

/-- Settles O50: a unit in Decode's domain is the four decoded strings one after another, and `fieldOf` is constant
on each. -/
theorem itemsAreTheDecodedFields : Obligations.ItemsAreTheDecodedFields := by
  intro c bits d hd
  obtain ⟨rfl, hS, hC, hE⟩ := decodeFrame_eq_some_iff.mp hd
  have hfield := fieldBytes_itemsOf_expand (payload := d.payload) hS hC hE
  have hm : c.lOvh ≤ (groups8 (expand (d.start ++ d.creator ++ d.payload ++ d.ending))).length := by
    simp only [groups8_expand, List.length_append, hS, hC, hE, Config.lOvh]; omega
  refine ⟨(hfield .start).trans (by simp), (hfield .creator).trans (by simp), (hfield .payload).trans (by simp),
    (hfield .endMarker).trans (by simp), ?_, fun k i => marks_of_getElem?_itemsOf hm⟩
  rw [itemsOf_expand, map_byte_itemsAt, groups8_expand]

end Sys2Proof.Machine
end

section
/-! PROOFS. The TX path from command to line: each TX-class command in its row of the legality table and outside it
(R120 to R125), the TX line transfer and the frame of the line and output transfers (R127), and the TX path computing
Encode (R128). -/

namespace Sys2Proof.Machine

/-! ### TX-class commands and the legality table -/

/-- R125: a TX-class command outside its row of the legality table raises SEQUENCE with its own word. -/
theorem exec_of_no_row {i : Instr} {s : State} (htx : i.txClass = true) (hpend : s.txPend = [])
    (hnone : nextTxField s.txField i = none) :
    exec i s = .next (raiseCmdError .sequence (encode i) s) := by
  obtain ⟨t, ht, -⟩ := exec_next i s
  rw [ht]
  obtain ⟨rfl, -⟩ | ⟨rfl, -⟩ | ⟨-, hne, -⟩ | ⟨f, -, -, hf, -⟩ | ⟨-, -, -, rfl⟩ := exec_cases ht
  · exact absurd htx nofun
  · exact absurd htx nofun
  · exact absurd hpend hne
  · exact absurd (hnone.symm.trans hf) nofun
  · rfl

/-- Settles O13: `raiseCmdError` writes the error fields if no error was recorded, and nothing else. -/
theorem outOfOrderCommandsAreRejected : Obligations.OutOfOrderCommandsAreRejected :=
  fun _ _ htx hpend hnone => exec_of_no_row htx hpend hnone

/-- Settles O14: `queueTx` writes the TX state and nothing else. -/
theorem inOrderCommandsArePerformed : Obligations.InOrderCommandsArePerformed :=
  fun _ _ _ hpend hrow => exec_of_row hpend hrow

theorem nextTxField_txbegin_eq_none {f : TxField} : nextTxField f .txbegin = none ↔ f ≠ .idle := by
  cases f <;> decide

theorem nextTxField_txsep_eq_none {f : TxField} : nextTxField f .txsep = none ↔ f ≠ .country := by
  cases f <;> decide

theorem nextTxField_txend_eq_none {f : TxField} : nextTxField f .txend = none ↔ f ≠ .text := by
  cases f <;> decide

/-- R122: a character belongs to whichever user field is open. -/
theorem nextTxField_txchar {f : TxField} (h : f = .country ∨ f = .text) (d : Byte) :
    nextTxField f (.txchar d) = some f := by
  obtain rfl | rfl := h <;> rfl

theorem txBusy_queueTx (f : TxField) (bytes : List Byte) (isEnd : Bool) (s : State) :
    txBusy (queueTx f bytes isEnd s) = true ↔ bytes ≠ [] := by
  rw [txBusy_iff, queueTx_txPend, Ne, expand_eq_nil]

/-- Settles O7: in IDLE the markers of the ROM are queued, elsewhere the table has no row. -/
theorem txbeginOpensTheFrame : Obligations.TxbeginOpensTheFrame := by
  refine fun s hpend => ⟨fun hidle => ?_, fun hne => exec_of_no_row rfl hpend (nextTxField_txbegin_eq_none.mpr hne)⟩
  rw [romRange_markers]
  refine ⟨_, exec_of_row hpend (by rw [hidle]; rfl), rfl, rfl, ?_⟩
  rw [Bool.eq_iff_iff, txBusy_queueTx, decide_eq_true_iff, ← List.length_pos_iff, queuedBytes, List.length_append]
  rfl

/-- Settles O8: in an open user field the one character is queued and the field kept, in IDLE the table has no row. -/
theorem txcharQueuesTheCharacter : Obligations.TxcharQueuesTheCharacter := by
  refine fun s d hpend => ⟨fun hopen => ?_, fun hidle => exec_of_no_row rfl hpend (by rw [hidle]; rfl)⟩
  exact ⟨_, exec_of_row hpend (nextTxField_txchar hopen d), rfl, (txBusy_queueTx _ _ _ _).mpr (List.cons_ne_nil d [])⟩

/-- Settles O9: in COUNTRY the separator 0x2C is queued, elsewhere the table has no row. -/
theorem txsepOpensTheText : Obligations.TxsepOpensTheText := by
  refine fun s hpend => ⟨fun hcountry => ?_, fun hne => exec_of_no_row rfl hpend (nextTxField_txsep_eq_none.mpr hne)⟩
  exact ⟨_, exec_of_row hpend (by rw [hcountry]; rfl), rfl, (txBusy_queueTx _ _ _ _).mpr (List.cons_ne_nil sep [])⟩

/-- Settles O10: in TEXT the END marker of the ROM is queued, which is not empty (R9), so a `TXBEGIN` is held. -/
theorem txendClosesTheFrame : Obligations.TxendClosesTheFrame := by
  refine fun s hpend => ⟨fun htext => ?_, fun hne => exec_of_no_row rfl hpend (nextTxField_txend_eq_none.mpr hne)⟩
  have hbusy := (txBusy_queueTx .idle s.cfg.endStr true s).mpr (endStr_ne_nil s.cfg)
  rw [romRange_end]
  exact ⟨_, exec_of_row hpend (by rw [htext]; rfl), rfl, rfl, hbusy,
    (cmdReady_eq_false _ _).mpr ⟨rfl, (txBusy_iff _).mp hbusy⟩⟩

/-! ### Line and output transfers -/

/-- Settles O30: each of the three is one named update of the noted state. -/
theorem lineAndOutputTransfersFrame : Obligations.LineAndOutputTransfersFrame := by
  intro x s hreset hcommand
  obtain ⟨t, ht, hcfg, hedges, htrace⟩ := fire_next x s
  refine ⟨t, ht, htrace, hcfg, hedges, ?_⟩
  cases x with
  | reset => exact absurd rfl hreset
  | command w => exact absurd rfl (hcommand w)
  | txLine b l =>
    cases ht
    exact ⟨rfl, rfl, rfl, rfl, fun h => absurd rfl (h b l), fun _ => ⟨rfl, rfl⟩, fun _ _ => rfl, fun _ => rfl⟩
  | rxLine b l =>
    cases ht
    refine ⟨by simp, by simp, by simp, by simp, fun _ => by simp, fun h => absurd rfl (h b l),
      fun h => absurd rfl (h b l), fun h => ?_⟩
    cases l with
    | true => exact absurd rfl (h b)
    | false => rfl
  | output i =>
    cases ht
    exact ⟨rfl, rfl, rfl, rfl, fun _ => ⟨rfl, rfl⟩, fun _ => ⟨rfl, rfl⟩, fun _ h => absurd rfl (h i), fun _ => rfl⟩

theorem txTransfer_of_pending {p : Inputs} {s : State} (hrst : p.rst = false) (hready : p.txReady = true)
    (hpend : s.txPend ≠ []) : txTransfer p s = [.txLine (txBit s) (txLast s)] := by
  simp [txTransfer, outputs, hrst, hready, (txValid_iff s).mpr hpend]

/-- Only the TX line transfer of an edge delivers a bit on the TX line. -/
theorem txBeatsOf_edgeTransfers {p : Inputs} (s : State) (hrst : p.rst = false) :
    txBeatsOf (edgeTransfers p s) = txBeatsOf (txTransfer p s) := by
  have hcmd : txBeatsOf (commandTransfer p s) = [] := by unfold commandTransfer; split <;> rfl
  have hrx : txBeatsOf (rxTransfer p s) = [] := by unfold rxTransfer; split <;> rfl
  have hout : txBeatsOf (outTransfer p s) = [] := by
    unfold outTransfer
    split
    · cases s.rxOut <;> rfl
    · rfl
  rw [edgeTransfers_run s hrst, txBeatsOf_append, txBeatsOf_append, txBeatsOf_append, hcmd, hrx, hout,
    List.nil_append, List.append_nil, List.append_nil]

theorem foldl_txPath_commandTransfer_of_pending (p : Inputs) (s : State) {v : TxPath} (h : v.pend ≠ []) :
    (commandTransfer p s).foldl TxPath.next v = v := by
  unfold commandTransfer
  split
  · exact TxPath.next_command_of_pending _ h
  · rfl

/-- R127: with bits pending and the sink ready, an edge without reset moves the TX path by the TX line transfer alone,
since no accepted word does. -/
theorem clockEdge_txPath_of_sink {p : Inputs} {s t : State} (hrst : p.rst = false) (hready : p.txReady = true)
    (hpend : s.txPend ≠ []) (h : clockEdge p s = .next t) :
    t.txPath = s.txPath.next (.txLine (txBit s) (txLast s)) := by
  rw [clockEdge_txPath h, hrst, List.foldl_append, List.foldl_append, txTransfer_of_pending hrst hready hpend,
    foldl_txPath_commandTransfer_of_pending p s hpend]
  rfl

/-- Settles O27: the edge's one TX line transfer moves the TX path and is the one noted. -/
theorem txLineDeliversTheHead : Obligations.TxLineDeliversTheHead := by
  intro s p rest b bs hedges hrst hready hpend
  have hne : s.txPend ≠ [] := by rw [hpend]; exact List.cons_ne_nil b bs
  obtain ⟨t, ht, -, -, htrace⟩ := fireAll_next (edgeTransfers p s) { s with edges := rest }
  have hpath : t.txPath = s.txPath.next (.txLine (txBit s) (txLast s)) :=
    clockEdge_txPath_of_sink (s := { s with edges := rest }) hrst hready hne ht
  have hbeats : txBeatsOf (edgeTransfers p s) = [(txBit s, txLast s)] := by
    rw [txBeatsOf_edgeTransfers s hrst, txTransfer_of_pending hrst hready hne]
    rfl
  have hlen : decide (s.txPend.length = 1) = bs.isEmpty := by rw [hpend]; cases bs <;> rfl
  have hpendEnd : (if s.txPend.length = 1 then false else s.txPendEnd) = (s.txPendEnd && !bs.isEmpty) := by
    rw [← hlen]
    by_cases h : s.txPend.length = 1 <;> simp [h]
  refine ⟨t, (step_of_edge hedges).trans ht, ?_, ?_, ?_⟩
  · exact (congrArg TxPath.pend hpath).trans (congrArg List.tail hpend)
  · exact (congrArg TxPath.pendEnd hpath).trans hpendEnd
  · rw [htrace, txBeatsOf_append, hbeats, txLast, hlen, txBit, hpend]
    rfl

/-! ### The TX path computes Encode -/

/-- R125: the performed commands take the field pointer through the legality table, row by row. -/
theorem foldlM_performedFrom (f : TxField) (ws : List Word) :
    (performedFrom f ws).foldlM nextTxField f = some (fieldAfter f ws) := by
  induction ws generalizing f with
  | nil => rfl
  | cons w ws ih =>
    cases hw : decodeCmd w with
    | error e => simp [performedFrom, fieldAfter, hw, ih]
    | ok i => cases hf : nextTxField f i <;> simp [performedFrom, fieldAfter, hw, hf, ih]

theorem beats_eq_nil {closes : Bool} {bits : List Bit} : beats closes bits = [] ↔ bits = [] := by
  cases bits <;> simp [beats]

/-- R129: nothing follows a bit with `tx_last` = 1. -/
theorem eq_nil_of_beats_eq_append {closes : Bool} {bits : List Bit} {sent left : List (Bit × Bool)} {b : Bit}
    (h : beats closes bits = sent ++ left) (hlast : (b, true) ∈ sent) : left = [] := by
  induction bits generalizing sent with
  | nil => exact (List.append_eq_nil_iff.mp h.symm).2
  | cons b' rest ih =>
    obtain _ | ⟨beat, sent⟩ := sent
    · cases hlast
    · rw [beats, List.cons_append, List.cons.injEq] at h
      obtain ⟨rfl, hrest⟩ := h
      obtain hhead | htail := List.mem_cons.mp hlast
      · have hnil : rest = [] := by simpa using (Bool.and_eq_true_iff.mp (congrArg Prod.snd hhead).symm).2
        rw [hnil] at hrest
        exact (List.append_eq_nil_iff.mp hrest.symm).2
      · exact ih hrest htail

/-- Settles O53: by the balance of the TX path the line's bits and the pending ones are together those of the
performed commands, which are Encode's; once the bit with `tx_last` = 1 has left none is pending. -/
theorem txPathComputesEncode : Obligations.TxPathComputesEncode := by
  intro k s t ts country text hidle hpend hno hrun htrace hperf ⟨b, hb⟩
  obtain ⟨ts', htrace', hbalance⟩ := runSteps_txBalance hno hrun
  obtain rfl : ts = ts' := List.append_cancel_left (htrace.symm.trans htrace')
  have hfield : s.txPath.field = .idle := hidle
  have hline := hbalance.line
  rw [hfield, hperf, flatMap_lineOf_txframe, ← pendingBeats_eq_line s, pendingBeats, beats_eq_nil.mpr hpend,
    List.nil_append] at hline
  have hleft : t.txPath.line = [] := eq_nil_of_beats_eq_append hline.symm hb
  rw [hleft, List.append_nil] at hline
  have hclosed := foldlM_performedFrom .idle (commandsOf ts)
  rw [hperf, foldlM_txframe] at hclosed
  refine ⟨hline, ?_, beats_eq_nil.mp hleft⟩
  calc t.txField = fieldAfter s.txPath.field (commandsOf ts) := hbalance.field
    _ = .idle := by rw [hfield]; exact (Option.some.inj hclosed).symm

end Sys2Proof.Machine
end

section
/-! PROOFS. A unit's bits and items: the place of a bit in its byte (R141), the outcome by the number of kept bits
(R146), and the one item marked `last` that ends the undelivered ones (R106, R151). -/

namespace Sys2Proof.Machine

/-! ### The place of a bit -/

theorem getElem?_expand {s : List Byte} {i : Nat} (hi : i < 8 * s.length) :
    ∃ b, s[i / 8]? = some b ∧ (expand s)[i]? = some (b.getLsbD (7 - i % 8)) := by
  induction s generalizing i with
  | nil => exact absurd hi (Nat.not_lt_zero i)
  | cons c s ih =>
    rw [expand_cons]
    by_cases hfirst : i < 8
    · rw [Nat.div_eq_of_lt hfirst, Nat.mod_eq_of_lt hfirst, List.getElem?_append_left hfirst]
      exact ⟨c, rfl, getElem?_bits8 c hfirst⟩
    · obtain ⟨j, rfl⟩ := Nat.exists_eq_add_of_le' (Nat.le_of_not_lt hfirst)
      rw [Nat.add_div_right j (by decide), Nat.add_mod_right, List.getElem?_append_right (Nat.le_add_left 8 j),
        length_bits8, Nat.add_sub_cancel]
      exact ih (by rw [List.length_cons] at hi; omega)

/-- Settles O44: a unit of whole bytes is the expansion of its groups. -/
theorem bitPositionInAUnit : Obligations.BitPositionInAUnit := by
  intro bits i hwhole hi
  have hbits : expand (groups8 bits) = bits := expand_groups8 (n := bits.length / 8) (by omega)
  have hbit := getElem?_expand (s := groups8 bits) (i := i) (by rw [length_groups8]; omega)
  rwa [hbits] at hbit

/-! ### The outcome of a unit -/

/-- R106: a unit of the overhead alone has no payload byte. -/
theorem fieldBytes_payload_of_overhead {c : Config} {bits : List Bit} (h : (groups8 bits).length = c.lOvh) :
    fieldBytes .payload (itemsOf c bits) = [] := by
  rw [fieldBytes, List.filter_eq_nil_iff.mpr, List.map_nil]
  intro i hi
  obtain ⟨k, hk⟩ := List.mem_iff_getElem?.mp hi
  obtain ⟨b, -, rfl⟩ := getElem?_itemsOf_eq_some_iff.mp hk
  rw [decide_eq_true_iff, itemAt, fieldOf_eq_payload_iff, h]
  omega

/-- Settles O51: the four cases are the branches of UnitDecode; a unit of at least the overhead has an item for each
of its bytes. -/
theorem unitOutcomes : Obligations.UnitOutcomes := by
  intro c bits ovf
  refine ⟨?_, ?_, ?_, ?_⟩
  · rintro rfl
    rfl
  · rintro rfl hpartial
    exact if_pos hpartial
  · rintro rfl hwhole hshort
    exact (if_neg (not_not_intro hwhole)).trans (if_pos hshort)
  · rintro rfl hwhole hlen
    refine ⟨(if_neg (not_not_intro hwhole)).trans (if_neg hlen.not_gt), ?_, fun hovh => ?_⟩
    · rw [length_itemsOf, length_groups8]
    · exact fieldBytes_payload_of_overhead (by rw [length_groups8]; omega)

/-! ### The item marked `last` -/

/-- Of the items the final one, and no other, is marked `last`. -/
def EndsInLast (items : List Item) : Prop :=
  items.map Item.last = List.replicate (items.length - 1) false ++ List.replicate (min 1 items.length) true

theorem itemsClosed_iff (s : State) : ItemsClosed s ↔ EndsInLast s.rxOut := Iff.rfl

theorem endsInLast_nil : EndsInLast [] := rfl

theorem endsInLast_cons (i : Item) (is : List Item) :
    EndsInLast (i :: is) ↔ i.last = is.isEmpty ∧ EndsInLast is := by
  cases is <;> simp [EndsInLast, List.replicate_succ]

theorem EndsInLast.tail {items : List Item} (h : EndsInLast items) : EndsInLast items.tail := by
  cases items with
  | nil => exact h
  | cons i is => exact ((endsInLast_cons i is).mp h).2

/-- R106: the bytes that end a unit of `m` bytes give items of which the final one is marked. -/
theorem endsInLast_itemsAt (c : Config) {m k : Nat} {s : List Byte} (h : k + s.length = m) :
    EndsInLast (itemsAt c m k s) := by
  induction s generalizing k with
  | nil => exact endsInLast_nil
  | cons b s ih =>
    have hrest : k + 1 + s.length = m := by rw [← h, List.length_cons]; omega
    refine (endsInLast_cons (itemAt c m b k) (itemsAt c m (k + 1) s)).mpr ⟨?_, ih hrest⟩
    rw [Bool.eq_iff_iff, itemAt, decide_eq_true_iff, List.isEmpty_iff, ← hrest, itemsAt, List.map_eq_nil_iff,
      List.zipIdx_eq_nil_iff, ← List.length_eq_zero_iff]
    omega

theorem endsInLast_unitDecode (c : Config) (bits : List Bit) (ovf : Bool) :
    EndsInLast (unitDecode c bits ovf).2 := by
  unfold unitDecode
  split_ifs
  · exact endsInLast_nil
  · exact endsInLast_nil
  · exact endsInLast_nil
  · exact endsInLast_itemsAt c (Nat.zero_add _)

/-- R150, R151: a unit's items come only where none is pending, and leave from the head. -/
theorem itemsClosed_fire (x : Transfer) (s t : State) (hx : x.enabled s = true) (h : x.fire s = .next t)
    (hs : ItemsClosed s) : ItemsClosed t := by
  have hout : t.rxOut = (s.rxPath.next x).out := congrArg RxPath.out (fire_rxPath x s t h)
  rw [itemsClosed_iff] at hs ⊢
  rw [hout]
  cases x with
  | reset => exact endsInLast_nil
  | command w => exact hs
  | txLine b l => exact hs
  | rxLine b l =>
    cases l with
    | false => exact hs
    | true => exact endsInLast_unitDecode _ _ _
  | output i => exact hs.tail

/-- Settles O35: every transfer of the step's edge keeps the items closed. -/
theorem everyStepKeepsItemsClosed : Obligations.EveryStepKeepsItemsClosed :=
  fun _ _ hs h => step_keeps (fun _ _ hs => hs) itemsClosed_fire h hs

end Sys2Proof.Machine
end

section
/-! PROOFS. The RX state at one edge, `rx_result` included: a transition per transfer as for the RX path, the bit an
edge accepts (R140 to R145) and the item it delivers (R150). -/

namespace Sys2Proof.Machine

/-! ### The RX path with its result -/

/-- The outcome of the open unit if the bit `b` ends it (R143, R144). -/
def RxPath.outcomeAt (v : RxPath) (b : Bit) : RxResult × List Item :=
  unitDecode v.cfg (Memory.write v.cfg v.bits b).1 (v.ovf || (Memory.write v.cfg v.bits b).2)

theorem RxPath.outcomeAt_of_room {v : RxPath} (h : v.bits.length < 8 * v.cfg.nRxBuf) (b : Bit) :
    v.outcomeAt b = unitDecode v.cfg (v.bits ++ [b]) v.ovf := by
  rw [RxPath.outcomeAt, Memory.write, if_pos h, Bool.or_false]

theorem RxPath.outcomeAt_of_full {v : RxPath} (h : 8 * v.cfg.nRxBuf ≤ v.bits.length) (b : Bit) :
    v.outcomeAt b = unitDecode v.cfg v.bits true := by
  rw [RxPath.outcomeAt, Memory.write, if_neg h.not_gt, Bool.or_true]

theorem RxPath.accept_of_room {v : RxPath} (h : v.bits.length < 8 * v.cfg.nRxBuf) (b : Bit) :
    v.accept b false = ⟨v.cfg, v.bits ++ [b], v.ovf, v.out⟩ := by
  simp [RxPath.accept, Memory.write, h]

theorem RxPath.accept_of_full {v : RxPath} (h : 8 * v.cfg.nRxBuf ≤ v.bits.length) (b : Bit) :
    v.accept b false = ⟨v.cfg, v.bits, true, v.out⟩ := by
  simp [RxPath.accept, Memory.write, h.not_gt]

/-- The RX path and `rx_result` (R29). -/
structure RxSide where
  path : RxPath
  result : RxResult

/-- The RX side of a state. -/
def State.rxSide (s : State) : RxSide := ⟨s.rxPath, s.rxResult⟩

/-- What a transfer does to `rx_result`: reset and `CLRSTAT` clear it, the bit that ends a unit writes it. -/
def RxSide.resultAfter (v : RxSide) : Transfer → RxResult
  | .reset => .none
  | .command w => if w = 0x5000#16 then .none else v.result
  | .txLine _ _ => v.result
  | .rxLine b l => if l then (v.path.outcomeAt b).1 else v.result
  | .output _ => v.result

/-- What a transfer does to the RX side. -/
def RxSide.next (v : RxSide) (x : Transfer) : RxSide := ⟨v.path.next x, v.resultAfter x⟩

/-- R162: of the words only `CLRSTAT`'s moves `rx_result`. -/
theorem performWord_rxResult {w : Word} {s t : State} (h : performWord w s = .next t) :
    t.rxResult = if w = 0x5000#16 then .none else s.rxResult := by
  cases hw : decodeCmd w with
  | error e =>
    rw [performWord_illegal s hw] at h
    cases h
    rw [raiseCmdError_rxResult, if_neg]
    rintro rfl
    cases hw
  | ok i =>
    rw [performWord_ok s hw] at h
    obtain rfl := eq_encode_of_decodeCmd hw
    by_cases hi : i = .clrstat
    · subst hi
      cases h
      rfl
    · have hne : encode i ≠ 0x5000#16 := fun he => hi (encode_injective (a₂ := .clrstat) he)
      rw [if_neg hne]
      obtain ⟨-, rfl⟩ | ⟨hclr, -⟩ | ⟨-, -, rfl⟩ | ⟨f, -, -, -, rfl⟩ | ⟨-, -, -, rfl⟩ := exec_cases h
      · rfl
      · exact absurd hclr hi
      · rfl
      · exact queueTx_rxResult _ _ _ _
      · exact raiseCmdError_rxResult _ _ _

theorem fire_rxSide (x : Transfer) (s t : State) (h : x.fire s = .next t) : t.rxSide = s.rxSide.next x := by
  have hresult : t.rxResult = s.rxSide.resultAfter x := by
    cases x with
    | command w => exact performWord_rxResult (s := record _ s) h
    | reset => cases h; rfl
    | txLine b l => cases h; rfl
    | rxLine b l => cases h; cases l <;> rfl
    | output i => cases h; rfl
  rw [State.rxSide, fire_rxPath x s t h, hresult]
  rfl

theorem RxSide.foldl_path (v : RxSide) (ts : List Transfer) :
    (ts.foldl RxSide.next v).path = ts.foldl RxPath.next v.path :=
  (List.foldl_hom RxSide.path fun _ _ => rfl).symm

/-! ### The accepted bit of an edge -/

/-- The RX side after an edge that accepts a bit: the bit goes to the RX path of the start of the cycle, and
`rx_result` before it is that of the start unless a word came with it. -/
theorem clockEdge_rxSide_of_bit {p : Inputs} {s t : State} (hrst : p.rst = false) (hvalid : p.rxValid = true)
    (hout : s.rxOut = []) (h : clockEdge p s = .next t) :
    ∃ r, (p.cmdValid = false → r = s.rxResult)
      ∧ t.rxSide = RxSide.next ⟨s.rxPath, r⟩ (.rxLine p.rxBit p.rxLast) := by
  have hfold := fireAll_view fire_rxSide h
  rw [edgeTransfers_run s hrst, rxTransfer_of_accepted hrst hvalid hout, outTransfer_of_no_items p hout,
    List.append_nil, List.foldl_append] at hfold
  refine ⟨((commandTransfer p s ++ txTransfer p s).foldl RxSide.next s.rxSide).result, fun hcmd => ?_, ?_⟩
  · have hnone : commandTransfer p s = [] := by simp [commandTransfer, hcmd]
    rw [hnone, List.nil_append]
    obtain htx | htx := txTransfer_cases p s
    all_goals rw [htx]; rfl
  · have hpath : ((commandTransfer p s ++ txTransfer p s).foldl RxSide.next s.rxSide).path = s.rxPath := by
      rw [RxSide.foldl_path, List.foldl_append, foldl_rxPath_commandTransfer, foldl_rxPath_txTransfer]
      rfl
    rw [hfold, ← hpath]
    rfl

/-- Settles O28: whatever came before it at the edge, the bit meets the RX path of the start of the cycle. -/
theorem rxLineKeepsOrEndsTheUnit : Obligations.RxLineKeepsOrEndsTheUnit := by
  intro s p rest hedges hrst hvalid hout
  obtain ⟨t, ht⟩ := exists_step s
  obtain ⟨r, hr, hside⟩ := clockEdge_rxSide_of_bit (s := { s with edges := rest }) hrst hvalid hout
    ((step_eq_clockEdge hedges).symm.trans ht)
  have hpath : t.rxPath = s.rxPath.accept p.rxBit p.rxLast := congrArg RxSide.path hside
  have hresult : t.rxResult = if p.rxLast then (s.rxPath.outcomeAt p.rxBit).1 else r :=
    congrArg RxSide.result hside
  refine ⟨t, ht, ?_⟩
  cases hlast : p.rxLast with
  | false =>
    rw [hlast] at hpath hresult
    refine ⟨fun hroom _ => ?_, fun hfull _ => ?_, nofun, nofun, nofun, fun _ hcmd => hresult.trans (hr hcmd)⟩
    · rw [RxPath.accept_of_room hroom] at hpath
      exact ⟨congrArg RxPath.bits hpath, congrArg RxPath.ovf hpath, (congrArg RxPath.out hpath).trans hout⟩
    · rw [RxPath.accept_of_full hfull] at hpath
      exact ⟨congrArg RxPath.bits hpath, congrArg RxPath.ovf hpath, (congrArg RxPath.out hpath).trans hout⟩
  | true =>
    rw [hlast] at hpath hresult
    have houtcome : (t.rxResult, t.rxOut) = s.rxPath.outcomeAt p.rxBit :=
      Prod.ext hresult (congrArg RxPath.out hpath)
    exact ⟨nofun, nofun, fun hroom _ => houtcome.trans (RxPath.outcomeAt_of_room hroom _),
      fun hfull _ => houtcome.trans (RxPath.outcomeAt_of_full hfull _),
      fun _ => ⟨congrArg RxPath.bits hpath, congrArg RxPath.ovf hpath⟩, nofun⟩

/-! ### The delivered item of an edge -/

theorem outTransfer_of_items {p : Inputs} {s : State} {i : Item} {is : List Item} (hrst : p.rst = false)
    (hready : p.outReady = true) (hout : s.rxOut = i :: is) : outTransfer p s = [.output i] := by
  simp [outTransfer, outputs, outValid, hrst, hready, hout]

/-- Only the RX line transfer of an edge accepts a bit, and only its output transfer delivers an item. -/
theorem rx_edgeTransfers {p : Inputs} (s : State) (hrst : p.rst = false) :
    rxBeatsOf (edgeTransfers p s) = rxBeatsOf (rxTransfer p s)
      ∧ itemsTaken (edgeTransfers p s) = itemsTaken (outTransfer p s) := by
  have hcmd : rxBeatsOf (commandTransfer p s) = [] ∧ itemsTaken (commandTransfer p s) = [] := by
    unfold commandTransfer; split <;> exact ⟨rfl, rfl⟩
  have htx : rxBeatsOf (txTransfer p s) = [] ∧ itemsTaken (txTransfer p s) = [] := by
    unfold txTransfer; split <;> exact ⟨rfl, rfl⟩
  have hrx : itemsTaken (rxTransfer p s) = [] := by unfold rxTransfer; split <;> rfl
  have hout : rxBeatsOf (outTransfer p s) = [] := by
    unfold outTransfer
    split
    · cases s.rxOut <;> rfl
    · rfl
  rw [edgeTransfers_run s hrst]
  constructor
  · simp only [rxBeatsOf_append, hcmd, htx, hout, List.nil_append, List.append_nil]
  · simp only [itemsTaken_append, hcmd, htx, hrx, List.nil_append]

/-- Settles O29: with an item pending no bit is accepted, so the output transfer alone moves the RX path; the closed
items end where the delivered one is marked. -/
theorem outputDeliversTheHead : Obligations.OutputDeliversTheHead := by
  intro s p rest i is hedges hrst hready hitems
  have hne : s.rxOut ≠ [] := by rw [hitems]; exact List.cons_ne_nil i is
  have htaken := outTransfer_of_items hrst hready hitems
  obtain ⟨t, ht, -, -, htrace⟩ := fireAll_next (edgeTransfers p s) { s with edges := rest }
  have hpath : t.rxPath = (edgeTransfers p s).foldl RxPath.next s.rxPath :=
    fireAll_view (s := { s with edges := rest }) fire_rxPath ht
  rw [edgeTransfers_run s hrst, rxTransfer_of_items p hne, htaken, List.append_nil, List.foldl_append,
    List.foldl_append, foldl_rxPath_commandTransfer, foldl_rxPath_txTransfer] at hpath
  have hout : t.rxOut = is := (congrArg RxPath.out hpath).trans (congrArg List.tail hitems)
  refine ⟨t, (step_of_edge hedges).trans ht, hout, ?_, fun hclosed => ?_⟩
  · rw [htrace, itemsTaken_append, (rx_edgeTransfers s hrst).2, htaken]
    rfl
  · rw [itemsClosed_iff, hitems, endsInLast_cons] at hclosed
    rw [hclosed.1, rxBusy, hout, Bool.not_eq_false']

end Sys2Proof.Machine
end

section
/-! PROOFS. Units over a run: a unit offered bit after bit, a frame received as one unit (R154), and two blocks whose
line is joined (R155). -/

namespace Sys2Proof.Machine

/-! ### The unit that a bit with `rx_last` ends -/

theorem openAfter_beats_false (u bs : List Bit) : openAfter u (beats false bs) = u ++ bs := by
  induction bs generalizing u with
  | nil => exact (List.append_nil u).symm
  | cons b bs ih => exact (ih (u ++ [b])).trans (List.append_assoc u [b] bs)

/-- R142: bits of which the last, and no other, has `rx_last` = 1 complete one unit. -/
theorem unitsFrom_beats {bs : List Bit} (h : bs ≠ []) (u : List Bit) : unitsFrom u (beats true bs) = [u ++ bs] := by
  induction bs generalizing u with
  | nil => exact absurd rfl h
  | cons b bs ih =>
    cases bs with
    | nil => rfl
    | cons b' bs =>
      have hrest := ih (List.cons_ne_nil b' bs) (u ++ [b])
      rw [List.append_assoc] at hrest
      exact hrest

/-- The bit with `rx_last` = 1 of a unit's beats is the last one, and the bits before it are the open unit. -/
theorem eq_of_beats_eq_append {u : List Bit} {before after : List (Bit × Bool)} {b : Bit}
    (h : beats true u = before ++ (b, true) :: after) : after = [] ∧ u = openAfter [] before ++ [b] := by
  have hne : u ≠ [] := by
    rintro rfl
    exact List.cons_ne_nil _ _ (List.append_eq_nil_iff.mp h.symm).2
  obtain rfl : after = [] :=
    eq_nil_of_beats_eq_append (b := b) (sent := before ++ [(b, true)]) (h.trans (List.append_cons _ _ _)) (by simp)
  have hunits := unitsFrom_beats hne []
  rw [h, (unitsFrom_append _ _ _).1] at hunits
  exact ⟨rfl, (List.singleton_inj.mp (List.append_inj' (s₂ := []) hunits rfl).2).symm⟩

theorem RxPath.Holds.outcomeAt {v : RxPath} {u : List Bit} (h : v.Holds u) (b : Bit) :
    v.outcomeAt b = unitOutcome v.cfg (u ++ [b]) := by
  obtain ⟨hbits, hovf⟩ := h.write b
  rw [RxPath.outcomeAt, hbits, hovf]
  rfl

/-- R140, R143: a transfer other than reset leads from the open unit `u` to the one it leaves open. -/
theorem RxPath.Holds.next {v : RxPath} {u : List Bit} (h : v.Holds u) {x : Transfer} (hx : x ≠ .reset) :
    (v.next x).Holds (openAfter u (rxBeatsOf [x])) ∧ (v.next x).cfg = v.cfg := by
  cases x with
  | reset => exact absurd rfl hx
  | command w => exact ⟨h, rfl⟩
  | txLine b l => exact ⟨h, rfl⟩
  | rxLine b l =>
    cases l with
    | true => exact ⟨RxPath.holds_nil rfl rfl, rfl⟩
    | false => exact ⟨⟨(h.write b).1, (h.write b).2⟩, rfl⟩
  | output i => exact ⟨⟨h.bits, h.ovf⟩, rfl⟩

/-! ### A unit offered bit after bit -/

/-- An edge at which the RX source alone offers a bit and no item is pending accepts that bit. -/
theorem step_of_rxInputs {s : State} {b : Bit} {l : Bool} {rest : List Inputs}
    (hes : s.edges = rxInputs (b, l) :: rest) (hout : s.rxOut = []) :
    ∃ t, step s = .next t ∧ t.edges = rest ∧ t.rxSide = s.rxSide.next (.rxLine b l) := by
  have hstep := step_of_transfer (x := .rxLine b l) hes ((rxReady_iff s).mpr hout)
  obtain ⟨t, ht, -, hedges, -⟩ := fire_next (.rxLine b l) { s with edges := rest }
  exact ⟨t, hstep.trans ht, hedges, fire_rxSide _ { s with edges := rest } t ht⟩

/-- The bits `bs` offered one edge after another with `rx_last` on the last go on with the open unit `u` and end it. -/
theorem runSteps_unit {bs u : List Bit} {s : State} {rest : List Inputs} (hbs : bs ≠ []) (hu : s.rxPath.Holds u)
    (hout : s.rxOut = []) (hes : s.edges = (beats true bs).map rxInputs ++ rest) :
    ∃ t, runSteps bs.length s = .next t ∧ (t.rxResult, t.rxOut) = unitOutcome s.cfg (u ++ bs)
      ∧ t.rxBits = [] ∧ t.rxOvf = false ∧ t.edges = rest := by
  induction bs generalizing s u with
  | nil => exact absurd rfl hbs
  | cons b bs ih =>
    obtain ⟨t, ht, hrest, hside⟩ := step_of_rxInputs hes hout
    cases bs with
    | nil =>
      have houtcome : (t.rxResult, t.rxOut) = s.rxPath.outcomeAt b :=
        Prod.ext (congrArg RxSide.result hside) (congrArg (·.path.out) hside)
      exact ⟨t, runSteps_succ 0 ht, houtcome.trans (hu.outcomeAt b), congrArg (·.path.bits) hside,
        congrArg (·.path.ovf) hside, hrest⟩
    | cons b' bs =>
      have hpath : t.rxPath = s.rxPath.accept b false := congrArg RxSide.path hside
      have hcfg : t.cfg = s.cfg := congrArg RxPath.cfg hpath
      have hopen : t.rxPath.Holds (u ++ [b]) := by
        rw [hpath]
        exact (hu.next (x := .rxLine b false) nofun).1
      obtain ⟨t', hrun, houtcome, hends⟩ :=
        ih (List.cons_ne_nil b' bs) hopen ((congrArg RxPath.out hpath).trans hout) hrest
      rw [hcfg, List.append_assoc] at houtcome
      exact ⟨t', (runSteps_succ _ ht).trans hrun, houtcome, hends⟩

/-- Settles O57: between two units the empty unit is open. -/
theorem unitScheduleIsDecoded : Obligations.UnitScheduleIsDecoded :=
  fun _ _ _ hu hbits hovf hout hes => runSteps_unit hu (RxPath.holds_nil hbits hovf) hout hes

/-! ### The result after a unit's end -/

/-- Transfers without reset lead from the open unit `u` to the one they leave open. -/
theorem RxPath.Holds.foldl {v : RxPath} {u : List Bit} (h : v.Holds u) {ts : List Transfer}
    (hreset : .reset ∉ ts) :
    (ts.foldl RxPath.next v).Holds (openAfter u (rxBeatsOf ts)) ∧ (ts.foldl RxPath.next v).cfg = v.cfg := by
  induction ts generalizing v u with
  | nil => exact ⟨h, rfl⟩
  | cons x xs ih =>
    rw [List.mem_cons, not_or] at hreset
    obtain ⟨hx, hcfg⟩ := h.next (Ne.symm hreset.1)
    obtain ⟨hxs, hcfg'⟩ := ih hx hreset.2
    rw [← List.singleton_append, rxBeatsOf_append, (unitsFrom_append _ _ _).2]
    exact ⟨hxs, hcfg'.trans hcfg⟩

/-- R29: with no further bit, `CLRSTAT` or reset `rx_result` stays. -/
theorem RxSide.foldl_result (v : RxSide) {ts : List Transfer} (hreset : .reset ∉ ts) (hbits : rxBeatsOf ts = [])
    (hclear : 0x5000#16 ∉ commandsOf ts) : (ts.foldl RxSide.next v).result = v.result := by
  induction ts generalizing v with
  | nil => rfl
  | cons x xs ih =>
    rw [List.mem_cons, not_or] at hreset
    rw [← List.singleton_append, rxBeatsOf_append, List.append_eq_nil_iff] at hbits
    rw [← List.singleton_append, commandsOf_append, List.mem_append, not_or] at hclear
    rw [List.foldl_cons, ih _ hreset.2 hbits.2 hclear.2]
    cases x with
    | reset => exact absurd rfl hreset.1
    | command w => exact if_neg fun hw : w = 0x5000#16 => hclear.1 (hw ▸ List.mem_singleton_self w)
    | txLine b l => rfl
    | rxLine b l => exact absurd hbits.1 (List.cons_ne_nil _ _)
    | output i => rfl

/-- The RX side after a run without reset is that of the transfers the run notes. -/
theorem runSteps_rxSide {k : Nat} {s t : State} {ts : List Transfer} (hno : noReset k s = true)
    (hrun : runSteps k s = .next t) (htrace : t.trace = s.trace ++ ts) :
    .reset ∉ ts ∧ t.rxSide = ts.foldl RxSide.next s.rxSide := by
  obtain ⟨ts', htrace', h⟩ :=
    runSteps_relates (R := fun s ts t => .reset ∉ ts ∧ t.rxSide = ts.foldl RxSide.next s.rxSide)
      (fun _ _ => ⟨List.not_mem_nil, rfl⟩)
      (fun h h' => ⟨by simp [h.1, h'.1], by rw [List.foldl_append, ← h.2, h'.2]⟩)
      (fun x s t hreset _ h => ⟨by simpa using hreset.symm, fire_rxSide x s t h⟩) hno hrun
  obtain rfl : ts = ts' := List.append_cancel_left (htrace.symm.trans htrace')
  exact h

/-- R145: after the bit that ends a unit `rx_result` is the unit's outcome, until a further bit or `CLRSTAT`. -/
theorem rxResult_after_unit {k : Nat} {s t : State} {ts ts' : List Transfer} {b : Bit} (hs : s.rxPath.Holds [])
    (hno : noReset k s = true) (hrun : runSteps k s = .next t)
    (htrace : t.trace = s.trace ++ (ts ++ .rxLine b true :: ts')) (hbits : rxBeatsOf ts' = [])
    (hclear : 0x5000#16 ∉ commandsOf ts') :
    t.rxResult = (unitOutcome s.cfg (openAfter [] (rxBeatsOf ts) ++ [b])).1 := by
  obtain ⟨hreset, hside⟩ := runSteps_rxSide hno hrun htrace
  rw [List.mem_append, List.mem_cons, not_or, not_or] at hreset
  obtain ⟨hreset, -, hreset'⟩ := hreset
  obtain ⟨hopen, hcfg⟩ := hs.foldl hreset
  have hresult : t.rxResult = ((ts.foldl RxPath.next s.rxPath).outcomeAt b).1 := by
    rw [List.foldl_append, List.foldl_cons] at hside
    refine (congrArg RxSide.result hside).trans ((RxSide.foldl_result _ hreset' hbits hclear).trans ?_)
    exact congrArg (fun v => (RxPath.outcomeAt v b).1) (RxSide.foldl_path s.rxSide ts)
  rw [hresult, hopen.outcomeAt, hcfg]
  rfl

/-! ### A frame received as one unit -/

theorem encodeFrame_ne_nil (c : Config) (country text : List Byte) : encodeFrame c country text ≠ [] :=
  List.ne_nil_of_length_pos (by rw [length_encodeFrame]; omega)

/-- R143, R144: a frame that fits the buffer is decoded, a longer one is OVERFLOW. -/
theorem unitOutcome_encodeFrame (c : Config) (country text : List Byte) :
    unitOutcome c (encodeFrame c country text)
      = if c.lOvh + country.length + 1 + text.length ≤ c.nRxBuf then
          (.ok, itemsOf c (encodeFrame c country text)) else (.overflow, []) := by
  have hlen := length_encodeFrame c country text
  obtain ⟨hovf, -, -, hok⟩ := unitOutcomes c (encodeFrame c country text) false
  split_ifs with hfits
  · rw [unitOutcome, List.take_of_length_le (by omega), decide_eq_false (by omega)]
    exact (hok rfl (by omega) (by omega)).1
  · rw [unitOutcome, decide_eq_true (by omega)]
    rfl

/-- Settles O56: the run's items are those of its one unit, the frame, and its result the frame's, from the frame's
last bit on. -/
theorem rxPathComputesDecode : Obligations.RxPathComputesDecode := by
  intro k s t ts country text hbits hovf hout hno hrun htrace hframe
  obtain ⟨ts', htrace', hitems⟩ := rxPathDeliversTheUnits k s t hbits hovf hno hrun
  obtain rfl : ts = ts' := List.append_cancel_left (htrace.symm.trans htrace')
  rw [hframe, unitsFrom_beats (encodeFrame_ne_nil _ _ _), List.nil_append, List.flatMap_singleton, hout,
    List.nil_append, unitOutcome_encodeFrame] at hitems
  refine ⟨fun hfits => ?_, fun hlong => ?_, ?_⟩
  · obtain ⟨hstart, hcreator, hpayload, hend, -⟩ :=
      itemsAreTheDecodedFields s.cfg _ _ (decodeOfEncode s.cfg country text)
    rw [hitems, if_pos hfits]
    exact ⟨hstart, hcreator, hpayload, hend⟩
  · rw [hitems, if_neg hlong.not_ge]
  · rintro ts₁ ts₂ b rfl hclear
    rw [rxBeatsOf_append] at hframe
    obtain ⟨hnone, hunit⟩ := eq_of_beats_eq_append hframe.symm
    rw [rxResult_after_unit (RxPath.holds_nil hbits hovf) hno hrun htrace hnone hclear, ← hunit,
      unitOutcome_encodeFrame]
    split_ifs <;> rfl

/-! ### Two blocks joined -/

/-- R155: at an edge at which the line is joined the receiver accepts the bit that the sender delivers, if any. -/
theorem rxBeatsOf_eq_txBeatsOf_of_lineJoined {a b : State} {p q : Inputs} (h : lineJoined a b p q = true) :
    p.rst = false ∧ q.rst = false ∧ rxBeatsOf (edgeTransfers q b) = txBeatsOf (edgeTransfers p a) := by
  simp only [lineJoined, Bool.and_eq_true, Bool.not_eq_true', beq_iff_eq] at h
  obtain ⟨⟨⟨⟨⟨hp, hq⟩, hvalid⟩, hbit⟩, hlast⟩, hready⟩ := h
  refine ⟨hp, hq, ?_⟩
  rw [(rx_edgeTransfers b hq).1, txBeatsOf_edgeTransfers a hp]
  simp only [rxTransfer, txTransfer, outputs, hp, hq, hvalid, hbit, hlast, hready, Bool.not_false, Bool.true_and]
  split_ifs <;> rfl

/-- The first edge of a joined pair. -/
theorem joinedFor_succ {k : Nat} {a b : State} (h : joinedFor (k + 1) a b = true) :
    ∃ p q pRest qRest a' b', a.edges = p :: pRest ∧ b.edges = q :: qRest ∧ lineJoined a b p q = true
      ∧ step a = .next a' ∧ step b = .next b' ∧ joinedFor k a' b' = true := by
  obtain ⟨a', ha'⟩ := exists_step a
  obtain ⟨b', hb'⟩ := exists_step b
  cases ha : a.edges with
  | nil => simp [joinedFor, ha] at h
  | cons p pRest =>
    cases hb : b.edges with
    | nil => simp [joinedFor, ha, hb] at h
    | cons q qRest =>
      simp only [joinedFor, ha, hb, ha', hb', Bool.and_eq_true] at h
      exact ⟨p, q, pRest, qRest, a', b', rfl, rfl, h.1, ha', hb', h.2⟩

theorem noReset_cons {k : Nat} {s t : State} {p : Inputs} {rest : List Inputs} (hs : s.edges = p :: rest)
    (hrst : p.rst = false) (ht : t.edges = rest) (h : noReset k t = true) : noReset (k + 1) s = true := by
  rw [noReset, hs, List.take_succ_cons, List.all_cons, hrst, ← ht]
  exact h

/-- A step takes its edge from the scheduled ones and notes the edge's transfers. -/
theorem edges_trace_of_step {s t : State} {p : Inputs} {rest : List Inputs} (hs : s.edges = p :: rest)
    (h : step s = .next t) : t.edges = rest ∧ t.trace = s.trace ++ edgeTransfers p s := by
  obtain ⟨t', ht', -, hedges, htrace⟩ := fireAll_next (edgeTransfers p s) { s with edges := rest }
  rw [step_of_edge hs, ht'] at h
  cases h
  exact ⟨hedges, htrace⟩

/-- R155: neither of two joined blocks is reset, and the receiver accepts the bits that the sender delivers. -/
theorem joinedFor_runs {k : Nat} {a b a' b' : State} (h : joinedFor k a b = true) (ha : runSteps k a = .next a')
    (hb : runSteps k b = .next b') :
    noReset k a = true ∧ noReset k b = true ∧ ∃ tsA tsB, a'.trace = a.trace ++ tsA ∧ b'.trace = b.trace ++ tsB
      ∧ rxBeatsOf tsB = txBeatsOf tsA := by
  induction k generalizing a b with
  | zero =>
    cases ha
    cases hb
    exact ⟨rfl, rfl, [], [], (List.append_nil _).symm, (List.append_nil _).symm, rfl⟩
  | succ k ih =>
    obtain ⟨p, q, pRest, qRest, a₁, b₁, hpes, hqes, hjoined, hstepA, hstepB, hlater⟩ := joinedFor_succ h
    obtain ⟨hp, hq, hbeats⟩ := rxBeatsOf_eq_txBeatsOf_of_lineJoined hjoined
    rw [runSteps_succ k hstepA] at ha
    rw [runSteps_succ k hstepB] at hb
    obtain ⟨hnoA, hnoB, tsA, tsB, htraceA, htraceB, hline⟩ := ih hlater ha hb
    obtain ⟨hrestA, hnotedA⟩ := edges_trace_of_step hpes hstepA
    obtain ⟨hrestB, hnotedB⟩ := edges_trace_of_step hqes hstepB
    refine ⟨noReset_cons hpes hp hrestA hnoA, noReset_cons hqes hq hrestB hnoB, edgeTransfers p a ++ tsA,
      edgeTransfers q b ++ tsB, ?_, ?_, ?_⟩
    · rw [htraceA, hnotedA, List.append_assoc]
    · rw [htraceB, hnotedB, List.append_assoc]
    · rw [rxBeatsOf_append, txBeatsOf_append, hbeats, hline]

/-- Settles O58: the sender's line carries the frame, the receiver accepts what the line carries, and a frame accepted
as one unit is decoded. -/
theorem loopBackDeliversTheFrame : Obligations.LoopBackDeliversTheFrame := by
  intro k a b a' b' tsA tsB country text hcfg hidle hpend hbits hovf hout hjoined hrunA hrunB htraceA htraceB hperf hend
  obtain ⟨hnoA, hnoB, tsA', tsB', htraceA', htraceB', hline⟩ := joinedFor_runs hjoined hrunA hrunB
  obtain rfl : tsA = tsA' := List.append_cancel_left (htraceA.symm.trans htraceA')
  obtain rfl : tsB = tsB' := List.append_cancel_left (htraceB.symm.trans htraceB')
  have hframe : rxBeatsOf tsB = beats true (encodeFrame a.cfg country text) :=
    hline.trans (txPathComputesEncode k a a' tsA country text hidle hpend hnoA hrunA htraceA hperf hend).1
  refine ⟨hframe, ?_⟩
  rw [hcfg] at hframe ⊢
  exact (rxPathComputesDecode k b b' tsB country text hbits hovf hout hnoB hrunB htraceB hframe).1

end Sys2Proof.Machine
end

section
/-! PROOFS. The control commands and the words that are not TX-class (R160 to R163, R171, R172), and what each of the
six commands leaves unchanged. -/

namespace Sys2Proof.Machine

/-! ### Words that are never held -/

/-- R161: only a TX-class word is ever held. -/
theorem cmdReady_of_not_isTX {w : Word} (s : State) (h : isTX w = false) : cmdReady w s = true :=
  (cmdReady_iff w s).mpr fun ⟨hTX, _⟩ => absurd (h.symm.trans hTX) nofun

/-- R125: the legality table has rows for TX-class commands only. -/
theorem nextTxField_of_not_txClass (f : TxField) {i : Instr} (h : i.txClass = false) : nextTxField f i = none :=
  Option.eq_none_iff_forall_ne_some.mpr fun _ hf => absurd (h.symm.trans (txClass_of_nextTxField hf)) nofun

/-- Settles O6: `NOP` answers its own state and its word is not TX-class. -/
theorem nopChangesNothing : Obligations.NopChangesNothing :=
  fun s => ⟨rfl, cmdReady_of_not_isTX s Laws.TableRow.nop.2.1⟩

/-- Settles O11: `CLRSTAT` is the one update of the error and result fields and its word is not TX-class. -/
theorem clrstatClearsErrorAndResult : Obligations.ClrstatClearsErrorAndResult :=
  fun s => ⟨rfl, cmdReady_of_not_isTX s Laws.TableRow.clrstat.2.1⟩

/-- Settles O17: the port's test fails on an illegal word, whose whole effect is `raiseCmdError`. -/
theorem illegalWordsAreRecorded : Obligations.IllegalWordsAreRecorded :=
  fun _ s ⟨_, he⟩ => ⟨cmdReady_of_illegal s he, performWord_illegal s he⟩

/-- R161: a word that is not TX-class, legal or not, leaves the TX path as it is. -/
theorem performWord_txPath_of_not_isTX {w : Word} {s t : State} (hTX : isTX w = false)
    (h : performWord w s = .next t) : t.txPath = s.txPath := by
  rw [performWord_txPath h]
  exact TxPath.next_command_of_rejected fun i hi =>
    nextTxField_of_not_txClass _ ((isTX_of_decodeCmd hi).symm.trans hTX)

/-- Settles O18: such a word moves neither path, and `rx_result` is not part of the RX path. -/
theorem otherWordsAreNeverHeld : Obligations.OtherWordsAreNeverHeld := by
  intro w s hTX
  obtain ⟨t, ht, -⟩ := performWord_next w s
  have htx := performWord_txPath_of_not_isTX hTX ht
  have hrx := performWord_rxPath ht
  exact ⟨cmdReady_of_not_isTX s hTX, t, ht, congrArg TxPath.field htx, congrArg TxPath.pend htx,
    congrArg TxPath.pendEnd htx, congrArg RxPath.bits hrx, congrArg RxPath.ovf hrx, congrArg RxPath.out hrx⟩

/-! ### What a command leaves unchanged -/

/-- R162: of the commands only `CLRSTAT` moves `rx_result`. -/
theorem exec_rxResult {i : Instr} {s t : State} (h : exec i s = .next t) (hi : i ≠ .clrstat) :
    t.rxResult = s.rxResult := by
  have hne : encode i ≠ 0x5000#16 := fun he => hi (encode_injective (a₂ := .clrstat) he)
  rw [performWord_rxResult ((performWord_ok s (decodeCmd_encode i)).trans h), if_neg hne]

/-- R125: a command without a row in the legality table leaves the TX path as it is. -/
theorem exec_txPath_of_no_row {i : Instr} {s t : State} (h : exec i s = .next t)
    (hnone : nextTxField s.txField i = none) : t.txPath = s.txPath :=
  (exec_txPath h).trans (TxPath.offer_of_no_row hnone)

/-- R122: a character keeps the field pointer, whether it is queued, held or rejected. -/
theorem exec_txchar_txField {d : Byte} {s t : State} (h : exec (.txchar d) s = .next t) : t.txField = s.txField := by
  obtain ⟨⟨⟩, -⟩ | ⟨⟨⟩, -⟩ | ⟨-, -, rfl⟩ | ⟨f, -, -, hf, rfl⟩ | ⟨-, -, -, rfl⟩ := exec_cases h
  · rfl
  · cases hs : s.txField <;> rw [hs] at hf <;> cases hf <;> rfl
  · exact raiseCmdError_txField _ _ _

/-- R171: only `CLRSTAT` and a rejected command write the error fields. -/
theorem exec_errorFields {i : Instr} {s t : State} (h : exec i s = .next t)
    (hi : i = .nop ∨ (nextTxField s.txField i).isSome) :
    t.cmdErr = s.cmdErr ∧ t.cmdCause = s.cmdCause ∧ t.errWord = s.errWord := by
  obtain ⟨-, rfl⟩ | ⟨rfl, -⟩ | ⟨-, -, rfl⟩ | ⟨f, -, -, -, rfl⟩ | ⟨htx, -, hnone, -⟩ := exec_cases h
  · exact ⟨rfl, rfl, rfl⟩
  · rw [nextTxField_of_not_txClass s.txField (i := .clrstat) rfl] at hi
    exact absurd hi nofun
  · exact ⟨rfl, rfl, rfl⟩
  · exact ⟨rfl, rfl, rfl⟩
  · rw [hnone] at hi
    obtain rfl | hsome := hi
    · exact absurd htx nofun
    · exact absurd hsome nofun

/-- Settles O16: one lemma for each field that some command may write; the rest no command writes. -/
theorem commandFrame : Obligations.CommandFrame := by
  intro i s t h
  obtain ⟨t', ht', hcfg, hbits, hovf, hout, hedges, htrace⟩ := exec_next i s
  obtain rfl : t = t' := Host.Outcome.next.inj (h.symm.trans ht')
  refine ⟨hcfg, fun a => by rw [hcfg], fun k => by rw [hbits], hovf, hout, hedges, htrace, exec_rxResult h,
    fun hnot => ?_, fun ⟨d, hd⟩ => exec_txchar_txField (hd ▸ h), exec_errorFields h⟩
  have hpath := exec_txPath_of_no_row h (hnot.elim (nextTxField_of_not_txClass _) id)
  exact ⟨congrArg TxPath.field hpath, congrArg TxPath.pend hpath, congrArg TxPath.pendEnd hpath⟩

end Sys2Proof.Machine
end

section
/-! PROOFS. Errors (R170 to R174): what recording a command error does, every step goes on, and a recorded error stays
until `CLRSTAT` or reset. -/

namespace Sys2Proof.Machine

/-! ### Recording a command error -/

theorem raiseCmdError_of_clear (cause : CmdCause) (w : Word) {s : State} (h : s.cmdErr = false) :
    raiseCmdError cause w s = { s with cmdErr := true, cmdCause := cause, errWord := w } := by
  rw [raiseCmdError, h]
  rfl

theorem raiseCmdError_of_recorded (cause : CmdCause) (w : Word) {s : State} (h : s.cmdErr = true) :
    raiseCmdError cause w s = s :=
  if_pos h

/-- Settles O12: the two branches of `raiseCmdError`. -/
theorem onlyTheFirstErrorIsRecorded : Obligations.OnlyTheFirstErrorIsRecorded :=
  fun _ cause w => ⟨raiseCmdError_of_clear cause w, raiseCmdError_of_recorded cause w⟩

/-! ### Every step goes on -/

/-- Settles O21: with no edge the state is held, and every list of transfers answers a next state. -/
theorem everyStepGoesOn : Obligations.EveryStepGoesOn := exists_step

/-! ### A recorded error, transfer by transfer -/

/-- A command error is recorded, with its cause and its word (R30 to R32). -/
structure ErrorRecorded (cause : CmdCause) (w : Word) (s : State) : Prop where
  cmdErr : s.cmdErr = true
  cmdCause : s.cmdCause = cause
  errWord : s.errWord = w

section Sticky

variable {cause : CmdCause} {word : Word} {s t : State}

/-- A recorded error is read from the error fields alone. -/
theorem ErrorRecorded.congr (hs : ErrorRecorded cause word s) (herr : t.cmdErr = s.cmdErr)
    (hcause : t.cmdCause = s.cmdCause) (hword : t.errWord = s.errWord) : ErrorRecorded cause word t :=
  ⟨herr.trans hs.cmdErr, hcause.trans hs.cmdCause, hword.trans hs.errWord⟩

/-- Of the commands only `CLRSTAT` clears a recorded error; a rejected one finds it recorded. -/
theorem ErrorRecorded.exec {i : Instr} (hs : ErrorRecorded cause word s) (h : exec i s = .next t)
    (hi : i ≠ .clrstat) : ErrorRecorded cause word t := by
  obtain ⟨-, rfl⟩ | ⟨hclr, -⟩ | ⟨-, -, rfl⟩ | ⟨f, -, -, -, rfl⟩ | ⟨-, -, -, rfl⟩ := exec_cases h
  · exact hs
  · exact absurd hclr hi
  · exact hs
  · exact hs.congr rfl rfl rfl
  · rwa [raiseCmdError_of_recorded _ _ hs.cmdErr]

theorem ErrorRecorded.performWord {w : Word} (hs : ErrorRecorded cause word s) (h : performWord w s = .next t)
    (hw : w ≠ 0x5000#16) : ErrorRecorded cause word t := by
  cases hdec : decodeCmd w with
  | ok i =>
    rw [performWord_ok s hdec] at h
    refine hs.exec h ?_
    rintro rfl
    exact hw (eq_encode_of_decodeCmd hdec)
  | error e =>
    rw [performWord_illegal s hdec, raiseCmdError_of_recorded _ _ hs.cmdErr] at h
    cases h
    exact hs

/-- R174: of the transfers only reset and the word of `CLRSTAT` clear a recorded error. -/
theorem ErrorRecorded.fire {x : Transfer} (hs : ErrorRecorded cause word s) (h : x.fire s = .next t)
    (hreset : x ≠ .reset) (hclear : 0x5000#16 ∉ commandsOf [x]) : ErrorRecorded cause word t := by
  have hnoted : ErrorRecorded cause word (record x s) := hs.congr rfl rfl rfl
  cases x with
  | reset => exact absurd rfl hreset
  | command w => exact hnoted.performWord h fun hw => hclear (hw ▸ List.mem_singleton_self w)
  | txLine b l => cases h; exact hnoted.congr rfl rfl rfl
  | rxLine b l => cases h; cases l <;> exact hnoted.congr rfl rfl rfl
  | output i => cases h; exact hnoted.congr rfl rfl rfl

end Sticky

/-! ### A recorded error over a step -/

/-- R37: the word an edge accepts is the one offered at it. -/
theorem mem_commandsOf_edgeTransfers {p : Inputs} {s : State} {w : Word} (hrst : p.rst = false)
    (hw : w ∈ commandsOf (edgeTransfers p s)) : p.cmdValid = true ∧ p.cmdWord = w := by
  have htx : commandsOf (txTransfer p s) = [] := by unfold txTransfer; split <;> rfl
  have hrx : commandsOf (rxTransfer p s) = [] := by unfold rxTransfer; split <;> rfl
  have hout : commandsOf (outTransfer p s) = [] := by
    unfold outTransfer
    split
    · cases s.rxOut <;> rfl
    · rfl
  rw [edgeTransfers_run s hrst, commandsOf_append, commandsOf_append, commandsOf_append, htx, hrx, hout,
    List.append_nil, List.append_nil, List.append_nil, commandTransfer] at hw
  split at hw
  next hvalid =>
    rw [Bool.and_eq_true] at hvalid
    exact ⟨hvalid.1, (List.mem_singleton.mp hw).symm⟩
  next => exact absurd hw List.not_mem_nil

/-- R174 for a list of transfers, which clears a recorded error only by reset or by the word of `CLRSTAT`. -/
theorem ErrorRecorded.fireAll {cause : CmdCause} {word : Word} {ts : List Transfer} {s t : State}
    (hs : ErrorRecorded cause word s) (hts : EnabledInTurn ts s) (h : fireAll ts s = .next t) (hreset : .reset ∉ ts)
    (hclear : 0x5000#16 ∉ commandsOf ts) : ErrorRecorded cause word t :=
  fireAll_relates
    (R := fun s ts t => 0x5000#16 ∉ commandsOf ts → ErrorRecorded cause word s → ErrorRecorded cause word t)
    (fun _ _ _ hs => hs.congr rfl rfl rfl)
    (fun hsu hut hclear hs => by
      rw [commandsOf_append, List.mem_append, not_or] at hclear
      exact hut hclear.2 (hsu hclear.1 hs))
    (fun _ _ _ hreset _ h hclear hs => hs.fire h hreset hclear)
    hreset hts h hclear hs

/-- Settles O37: an edge without reset accepts no word but the one offered, so not that of `CLRSTAT`. -/
theorem commandErrorsAreSticky : Obligations.CommandErrorsAreSticky := by
  intro s t herr h hoffer
  have hs : ErrorRecorded s.cmdCause s.errWord s := ⟨herr, rfl, rfl⟩
  suffices ht : ErrorRecorded s.cmdCause s.errWord t from ⟨ht.cmdErr, ht.cmdCause, ht.errWord⟩
  cases hes : s.edges with
  | nil =>
    rw [step_of_no_edge hes] at h
    cases h
    exact hs
  | cons p rest =>
    obtain ⟨hrst, hnotClear⟩ := hoffer p (by rw [hes]; rfl)
    rw [step_of_edge hes] at h
    have hstart : ErrorRecorded s.cmdCause s.errWord { s with edges := rest } := hs.congr rfl rfl rfl
    exact hstart.fireAll (edgeTransfers_enabled p _) h (reset_notMem_edgeTransfers s hrst) fun hclear =>
      hnotClear (mem_commandsOf_edgeTransfers hrst hclear)

end Sys2Proof.Machine
end

section
/-! PROOFS. Reset (R190, R192), and a line or output sink that takes nothing (R37, R152, R196 to R198): what is held at
one edge, and over a whole run. -/

namespace Sys2Proof.Machine

/-! ### Reset -/

theorem status_resetBlock (s : State) : status (resetBlock s) = 0x00000000#32 := by
  obtain ⟨-, -, -, -, -, -, -, -, -, -, hstatus⟩ := resetStateValues
  exact hstatus

/-- R190: at an edge with `rst` = 1 the block is reset and nothing else happens. -/
theorem step_of_reset {s : State} {p : Inputs} {rest : List Inputs} (hedges : s.edges = p :: rest)
    (hrst : p.rst = true) : step s = .next (resetBlock (record .reset { s with edges := rest })) := by
  rw [step_of_edge hedges, edgeTransfers_reset s hrst]
  rfl

/-- Settles O22: both edges answer a reset block, and resetting a reset block again writes what stands there. -/
theorem resetEdgeResetsEverything : Obligations.ResetEdgeResetsEverything :=
  fun _ _ _ hedges hrst => ⟨_, step_of_reset hedges hrst, rfl, rfl, rfl, rfl, rfl, rfl, rfl, rfl, rfl, rfl,
    status_resetBlock _, rfl, rfl, rfl, fun _ _ hedges' hrst' => step_of_reset hedges' hrst'⟩

/-- Settles O24: a reset block has no bit and no item pending, which decides every valid and ready. -/
theorem portsAfterReset : Obligations.PortsAfterReset := by
  intro s p hrst
  obtain ⟨hcmd, htx, hrx, hout, -⟩ := (portsFollowTheState (resetBlock s) p).1 hrst
  exact ⟨hcmd.mpr fun ⟨_, hpend⟩ => hpend rfl, hrx.mpr rfl, Bool.eq_false_iff.mpr fun h => htx.mp h rfl,
    Bool.eq_false_iff.mpr fun h => hout.mp h rfl, status_resetBlock s⟩

/-! ### A held word -/

/-- R196: while bits are pending a TX-class command is held. -/
theorem exec_of_pending {i : Instr} {s : State} (htx : i.txClass = true) (hpend : s.txPend ≠ []) :
    exec i s = .next s := by
  obtain ⟨t, ht, -⟩ := exec_next i s
  rw [ht]
  obtain ⟨-, rfl⟩ | ⟨rfl, -⟩ | ⟨-, -, rfl⟩ | ⟨f, -, hidle, -⟩ | ⟨-, hidle, -⟩ := exec_cases ht
  · rfl
  · exact absurd htx nofun
  · rfl
  · exact absurd hidle hpend
  · exact absurd hidle hpend

/-- Settles O15: the port's test on the word is the class of its instruction. -/
theorem txWordsAreHeldWhilePending : Obligations.TxWordsAreHeldWhilePending := by
  intro i s htx hpend
  have hTX : isTX (encode i) = true := (isTX_of_decodeCmd (decodeCmd_encode i)).trans htx
  exact ⟨(cmdReady_eq_false (encode i) s).mpr ⟨hTX, hpend⟩, exec_of_pending htx hpend⟩

/-- Settles O20: the held word makes no transfer and no other agent acts, so the edge has none. -/
theorem stepHoldsABusyCommand : Obligations.StepHoldsABusyCommand := by
  intro s w rest hedges hheld
  have hcmd : commandTransfer (offerInputs w) s = [] := commandTransfer_of_held hheld
  have hnone : edgeTransfers (offerInputs w) s = [] := by
    rw [edgeTransfers_run s rfl, hcmd, List.nil_append, otherTransfers_of_offerInputs s rfl]
  rw [step_of_edge hedges, hnone, fireAll_nil]

/-! ### A run at whose edges the environment keeps to a condition -/

/-- A property `P` of the state and a property `Q` of the transfers noted hold over a run whose coming edges meet `C`,
when every such edge keeps `P` and makes transfers with `Q`. -/
theorem runSteps_keeps {C : Inputs → Prop} {P : State → Prop} {Q : List Transfer → Prop}
    (hedges : ∀ (s : State) (es : List Inputs), P s → P { s with edges := es })
    (hnil : Q []) (happend : ∀ ts us : List Transfer, Q ts → Q us → Q (ts ++ us))
    (hedge : ∀ (p : Inputs) (s t : State), C p → P s → clockEdge p s = .next t → P t ∧ Q (edgeTransfers p s))
    {k : Nat} {s t : State} (hC : ∀ p ∈ s.edges.take k, C p) (hrun : runSteps k s = .next t) (hs : P s) :
    P t ∧ ∃ ts, t.trace = s.trace ++ ts ∧ Q ts := by
  induction k generalizing s with
  | zero => cases hrun; exact ⟨hs, [], (List.append_nil _).symm, hnil⟩
  | succ k ih =>
    cases hes : s.edges with
    | nil =>
      rw [runSteps_succ k (step_of_no_edge hes)] at hrun
      exact ih (by simp [hes]) hrun hs
    | cons p rest =>
      rw [hes, List.take_succ_cons, List.forall_mem_cons] at hC
      obtain ⟨u, hu⟩ := exists_step s
      obtain ⟨hrest, htrace⟩ := edges_trace_of_step hes hu
      rw [runSteps_succ k hu] at hrun
      rw [step_eq_clockEdge hes] at hu
      obtain ⟨hPu, hQ⟩ := hedge p { s with edges := rest } u hC.1 (hedges s rest hs) hu
      obtain ⟨hPt, ts, htrace', hQ'⟩ := ih (by rw [hrest]; exact hC.2) hrun hPu
      exact ⟨hPt, edgeTransfers p s ++ ts, by rw [htrace', htrace, List.append_assoc], happend _ _ hQ hQ'⟩

/-! ### The TX sink takes nothing -/

/-- With bits pending and the sink not ready, an edge without reset leaves the TX path as it is. -/
theorem clockEdge_txPath_of_stalled {p : Inputs} {s t : State} (hrst : p.rst = false) (hready : p.txReady = false)
    (hpend : s.txPend ≠ []) (h : clockEdge p s = .next t) : t.txPath = s.txPath := by
  rw [clockEdge_txPath h, hrst, txTransfer_of_not_ready s hready, List.append_nil, List.foldl_append,
    foldl_txPath_commandTransfer_of_pending p s hpend]
  rfl

theorem mem_commandsOf_iff {ts : List Transfer} {w : Word} : w ∈ commandsOf ts ↔ .command w ∈ ts := by
  rw [commandsOf, List.mem_filterMap]
  refine ⟨fun ⟨x, hx, hw⟩ => ?_, fun h => ⟨_, h, rfl⟩⟩
  cases x with
  | command w' => cases hw; exact hx
  | reset | txLine | rxLine | output => cases hw

/-- Only the command transfer of an edge accepts a word. -/
theorem command_mem_edgeTransfers_iff {p : Inputs} {s : State} {w : Word} :
    .command w ∈ edgeTransfers p s ↔ .command w ∈ commandTransfer p s := by
  simp only [edgeTransfers, txTransfer, rxTransfer, outTransfer, List.mem_append]
  split_ifs <;> simp

/-- R37: an edge accepts a word only if the port is ready for it. -/
theorem cmdReady_of_mem_edgeTransfers {p : Inputs} {s : State} {w : Word} (h : .command w ∈ edgeTransfers p s) :
    cmdReady w s = true := by
  rw [command_mem_edgeTransfers_iff, commandTransfer] at h
  split at h
  next haccepted =>
    obtain rfl : w = p.cmdWord := Transfer.command.inj (List.mem_singleton.mp h)
    simp only [outputs, Bool.and_eq_true] at haccepted
    exact haccepted.2.2
  next => exact absurd h List.not_mem_nil

/-- R196: an edge accepts no TX-class word while bits are pending. -/
theorem isTX_of_mem_commandsOf_edgeTransfers {p : Inputs} {s : State} {w : Word} (hpend : s.txPend ≠ [])
    (hw : w ∈ commandsOf (edgeTransfers p s)) : isTX w = false := by
  have hready := (cmdReady_iff w s).mp (cmdReady_of_mem_edgeTransfers (mem_commandsOf_iff.mp hw))
  exact Bool.eq_false_iff.mpr fun hTX => hready ⟨hTX, hpend⟩

/-- Settles O39: every edge of the run leaves the TX path as it is, so bits stay pending and hold the next word. -/
theorem txHang : Obligations.TxHang := by
  intro k s t hpend hstalled hrun
  obtain ⟨hpath, hts⟩ := runSteps_keeps (P := fun u => u.txPath = s.txPath)
    (Q := fun ts => ∀ w ∈ commandsOf ts, isTX w = false) (fun _ _ h => h) nofun
    (fun ts us hts hus => by rw [commandsOf_append, List.forall_mem_append]; exact ⟨hts, hus⟩)
    (fun p u v ⟨hrst, hready⟩ hu h => by
      have hpend' : u.txPend ≠ [] := fun hnil => hpend ((congrArg TxPath.pend hu).symm.trans hnil)
      exact ⟨(clockEdge_txPath_of_stalled hrst hready hpend' h).trans hu,
        fun w => isTX_of_mem_commandsOf_edgeTransfers hpend'⟩)
    hstalled hrun rfl
  exact ⟨congrArg TxPath.pend hpath, congrArg TxPath.pendEnd hpath, congrArg TxPath.field hpath, hts⟩

/-! ### The output sink takes nothing -/

/-- With items pending and the sink not ready, an edge without reset leaves the RX path as it is. -/
theorem clockEdge_rxPath_of_stalled {p : Inputs} {s t : State} (hrst : p.rst = false) (hready : p.outReady = false)
    (hout : s.rxOut ≠ []) (h : clockEdge p s = .next t) : t.rxPath = s.rxPath := by
  rw [clockEdge_rxPath h, hrst, rxTransfer_of_items p hout, outTransfer_of_not_ready s hready]
  rfl

/-- R152: an edge accepts no RX bit while items are pending. -/
theorem rxBeatsOf_edgeTransfers_of_items {p : Inputs} {s : State} (hrst : p.rst = false) (hout : s.rxOut ≠ []) :
    rxBeatsOf (edgeTransfers p s) = [] := by
  rw [(rx_edgeTransfers s hrst).1, rxTransfer_of_items p hout]
  rfl

/-- Settles O40: every edge of the run leaves the RX path as it is, so items stay pending and hold the next bit. -/
theorem rxHold : Obligations.RxHold := by
  intro k s t hout hstalled hrun
  obtain ⟨hpath, hts⟩ := runSteps_keeps (P := fun u => u.rxPath = s.rxPath) (Q := fun ts => rxBeatsOf ts = [])
    (fun _ _ h => h) rfl (fun ts us hts hus => by rw [rxBeatsOf_append, hts, hus, List.append_nil])
    (fun p u v ⟨hrst, hready⟩ hu h => by
      have hout' : u.rxOut ≠ [] := fun hnil => hout ((congrArg RxPath.out hu).symm.trans hnil)
      exact ⟨(clockEdge_rxPath_of_stalled hrst hready hout' h).trans hu,
        rxBeatsOf_edgeTransfers_of_items hrst hout'⟩)
    hstalled hrun rfl
  exact ⟨congrArg RxPath.out hpath, congrArg RxPath.bits hpath, hts⟩

end Sys2Proof.Machine
end
